-- ==== Sys2Proof/Word.lean ====
section
/-! DEFINITION. The word types of the block: bytes and nibbles (00_scope.md R9: every byte is 8 bits, all
quantities are unsigned). -/

namespace Sys2Proof

/-- An 8-bit unsigned byte (R9). -/
abbrev Byte := BitVec 8

/-- A 4-bit half of a byte (R14). -/
abbrev Nibble := BitVec 4

end Sys2Proof
end

