-- ==== Sys2Proof/Machine/Params.lean ====
section
/-! DEFINITION. The parameters of 00_scope.md R7 and the flag bits of R8, each a named constant
(93_implementation_defined.md L-a). Waits are in microseconds. -/

namespace Sys2Proof.Machine

/-- `EXPANDER_ADDR` -/
def expanderAddr : BitVec 7 := 0x27
/-- `FRAME_PREFIX`: the first byte of every bus write -/
def frameLead : Byte := 0x00
/-- `P_RS` (decision D3) -/
def pRS : Byte := 0x01
/-- `P_RW`, always 0 in a frame byte (R46) -/
def pRW : Byte := 0x02
/-- `P_EN` -/
def pEN : Byte := 0x04
/-- `P_BL` -/
def pBL : Byte := 0x08
/-- The frame byte's data lines D7..D4 -/
def dataLines : Byte := 0xF0

/-- `T_PULSE`, 1 µs -/
def tPulse : Nat := 1
/-- `T_CYCLE`, 50 µs -/
def tCycle : Nat := 50
/-- `T_SETTLE`, 2 ms -/
def tSettle : Nat := 2000
/-- `T_POWER`, 50 ms -/
def tPower : Nat := 50000
/-- `T_LATCH`, 1 ms -/
def tLatch : Nat := 1000
/-- `T_RESET_NIBBLE`, 4.5 ms -/
def tResetNibble : Nat := 4500

/-- `GLYPH_SLOTS`: slots 0 to 7 -/
def glyphSlots : Nat := 8
/-- `GLYPH_BYTES` -/
def glyphBytes : Nat := 8

/-- Entry mode, left-direction `ID` (R8) -/
def flagID : Byte := 0x02
/-- Entry mode, autoscroll `S` -/
def flagS : Byte := 0x01
/-- Display control, display-on `D` -/
def flagD : Byte := 0x04
/-- Display control, cursor-on `C` -/
def flagC : Byte := 0x02
/-- Display control, blink-on `B` -/
def flagB : Byte := 0x01
/-- Shift, display-move `M` -/
def flagMove : Byte := 0x08
/-- Shift, right `R` -/
def flagRight : Byte := 0x04
/-- Function set, 8-bit `L` -/
def flagEightBit : Byte := 0x10
/-- Function set, 2-line `N` -/
def flagTwoLine : Byte := 0x08
/-- Function set, 5×10 font `F` -/
def flagFont : Byte := 0x04

/-- Opcodes of the HD44780 commands (41_commands.md R121 to R128) -/
def opClear : Byte := 0x01
def opHome : Byte := 0x02
def opEntry : Byte := 0x04
def opDispCtl : Byte := 0x08
def opShift : Byte := 0x10
def opFuncSet : Byte := 0x20
def opSetCgram : Byte := 0x40
def opSetDdram : Byte := 0x80

end Sys2Proof.Machine
end

