-- ==== Sys2Proof/Machine/Operands.lean ====
section
/-! DEFINITION. Operand assembly: frame bytes (40_transmit.md R102), nibbles (30_encoding.md R78), command bytes
(R77), display addresses (20_memory.md R50) and the bus write of a transaction (R51). -/

namespace Sys2Proof.Machine

/-- `BLMASK` (10_state.md R25): the frame image of the backlight flag. -/
def blMask (backlight : Bool) : Byte := if backlight then pBL else 0x00

/-- `FRAME(d, rs, en)` with the backlight flag it reads (R102). -/
def frame (backlight : Bool) (d : Byte) (rs en : Bool) : Byte :=
  (d &&& dataLines) ||| (if rs then pRS else 0x00) ||| (if en then pEN else 0x00) ||| blMask backlight

/-- The high nibble of a byte, in place (R78). -/
def hiNibble (b : Byte) : Byte := b &&& 0xF0

/-- The low nibble of a byte, shifted into the high nibble's place (R78). -/
def loNibble (b : Byte) : Byte := (b <<< 4) &&& 0xF0

/-- A 4-bit nibble as frame data, on bits 7:4 (R80, R107). -/
def nibbleData (n : BitVec 4) : Byte := n.zeroExtend 8 <<< 4

/-- The flag mask, or 0. -/
def maskIf (b : Bool) (mask : Byte) : Byte := if b then mask else 0x00

/-- Entry mode set (R77, R123). -/
def entryByte (displayMode : Byte) : Byte := opEntry ||| displayMode

/-- Display control (R77, R124). -/
def dispCtlByte (displayControl : Byte) : Byte := opDispCtl ||| displayControl

/-- Cursor/display shift with its two flags (R76, R125). -/
def shiftByte (move right : Bool) : Byte := opShift ||| maskIf move flagMove ||| maskIf right flagRight

/-- Function set with its three flags (R76, R126). -/
def funcSetByte (eight twoLine font : Bool) : Byte :=
  opFuncSet ||| maskIf eight flagEightBit ||| maskIf twoLine flagTwoLine ||| maskIf font flagFont

/-- Set CGRAM address (R77, R127): the shift is truncated to 8 bits. -/
def setCgramByte (slot : Byte) : Byte := opSetCgram ||| (slot <<< 3)

/-- Set DDRAM address (R77, R128): bit 7 of the address merges into the opcode bit. -/
def setDdramByte (addr : Byte) : Byte := opSetDdram ||| addr

/-- `ROW_OFFSETS` (10_state.md R33): no entry for any other row count. -/
def rowOffsets (rows : Byte) : Option (List Byte) :=
  if rows = 1 then some [0x00]
  else if rows = 2 then some [0x00, 0x40]
  else if rows = 4 then some [0x00, 0x40, 0x14, 0x54]
  else none

/-- `ROW_OFFSETS(rows)[row]`, read only for `row < rows` (R33). -/
def rowOffset (offsets : List Byte) (row : Byte) : Byte := offsets.getD row.toNat 0

/-- `(col + ROW_OFFSETS(rows)[row]) mod 256`, an 8-bit sum (20_memory.md R50). -/
def ddramAddr (col offset : Byte) : Byte := col + offset

/-- One bus write: the 7-bit target and the bytes, first sent first. -/
structure BusWrite where
  addr : BitVec 7
  bytes : List Byte
deriving DecidableEq, Repr

/-- The bus write that the transaction `Tx(v)` is (R11, R51, R100). -/
def busWriteOf (v : Byte) : BusWrite := ⟨expanderAddr, [frameLead, v]⟩

end Sys2Proof.Machine
end

