-- ==== Sys2Proof/Syntax.lean ====
section
/-! DEFINITION. The instructions: one constructor per row of spec/opcode_table.json. The rows stand in the four
encoding layers of 30_encoding.md R70: host requests (what the host issues, R71), HD44780 bytes (what the formatter
sends, R76), raw nibbles (R80), expander frame bytes (R75) and the bus transaction (R100). The lower layers are the
parts that requests are made of; no host issues them (R71, R219). -/

namespace Sys2Proof

inductive Instr where
  -- Host requests, in the order of R71.
  /-- `init` (R143). -/
  | init
  /-- `displayOn` (R144). -/
  | displayOn
  /-- `displayOff` (R145). -/
  | displayOff
  /-- `backlightOn` (R146). -/
  | backlightOn
  /-- `backlightOff` (R147). -/
  | backlightOff
  /-- `clear` (R148). -/
  | clear
  /-- `setCursor col, row` (R149). -/
  | setCursor (col row : Byte)
  /-- `print ch` (R150). -/
  | print (ch : Byte)
  /-- `printText text` (R151): a list of any length (R72, decision D31). -/
  | printText (text : List Byte)
  /-- `printWrapped text` (R152). -/
  | printWrapped (text : List Byte)
  /-- `autoscroll on|off` (R153). -/
  | autoscroll (enable : Bool)
  /-- `scrollLeft` (R154). -/
  | scrollLeft
  /-- `scrollRight` (R155). -/
  | scrollRight
  /-- `textDirectionLeftToRight` (R156). -/
  | textDirectionLeftToRight
  /-- `textDirectionRightToLeft` (R157). -/
  | textDirectionRightToLeft
  /-- `home` (R158). -/
  | home
  /-- `nextLine` (R159). -/
  | nextLine
  /-- `defineCustomGlyph slot, pattern` (R160): the pattern is exactly 8 bytes (R72; checked by `Instr.wf`). -/
  | defineCustomGlyph (slot : Byte) (pattern : List Byte)
  /-- ILLEGAL_REQUEST (R84): the bytes at the host port are no request of this block. -/
  | illegalRequest (bytes : List Byte)
  -- HD44780 bytes (R76).
  /-- CLEAR, `0000 0001` (R121). -/
  | lcdClear
  /-- HOME, `0000 0010` (R122). -/
  | lcdHome
  /-- ENTRY, `0000 01IS` (R123): `dir` is I (left-direction), `auto` is S (autoscroll). -/
  | lcdEntry (dir auto : Bool)
  /-- DISPCTL, `0000 1DCB` (R124): display-on, cursor-on, blink-on. -/
  | lcdDispCtl (disp cursor blink : Bool)
  /-- SHIFT, `0001 MR00` (R125): display-move, right. -/
  | lcdShift (move right : Bool)
  /-- FUNCSET, `001L NF00` (R126): 8-bit, 2-line, 5×10 font. -/
  | lcdFuncSet (eight twoLine font : Bool)
  /-- SETCGRAM, `01AA A000` (R127): the glyph slot. -/
  | lcdSetCgram (slot : BitVec 3)
  /-- SETDDRAM, `1AAA AAAA` (R128): the display address. -/
  | lcdSetDdram (addr : BitVec 7)
  /-- DATA, `DDDD DDDD` with register-select 1 (R129). -/
  | lcdData (byte : Byte)
  -- Raw nibbles (R80, R107).
  /-- RAW_NIBBLE_3. -/
  | rawNibble3
  /-- RAW_NIBBLE_2. -/
  | rawNibble2
  -- Expander frame bytes (R74, R75).
  /-- FRAME_EN_HIGH, `NNNN B10R`. -/
  | frameEnHigh (nibble : Nibble) (light rs : Bool)
  /-- FRAME_EN_LOW, `NNNN B00R`. -/
  | frameEnLow (nibble : Nibble) (light rs : Bool)
  /-- FRAME_RAW_LATCH, `0000 B000` (R108). -/
  | frameRawLatch (light : Bool)
  -- The bus transaction (R100).
  /-- TX, `[0x00, v]`. -/
  | tx (v : Byte)
deriving DecidableEq, Repr

end Sys2Proof
end

