-- ==== Sys2Proof/WellFormed.lean ====
section
/-! DEFINITION. Which instructions are well formed: the argument domains of 30_encoding.md R72 that the types of
Syntax.lean do not already carry, and what makes the bytes at the host port a legal request (R71, R72, R73). -/

namespace Sys2Proof

/-- A boolean argument travels as the byte 0x00 or 0x01 (log entry 6; program P6 writes `0B 01`). -/
def isBoolByte (b : Byte) : Bool := b == 0 || b == 1

/-- The arguments that the request of code `code` takes (R71, R72). Codes 0x00 and 0x13 to 0xFF are unassigned. -/
def legalArgs (code : Byte) (args : List Byte) : Bool :=
  if code == 0x07 then args.length == 2
  else if code == 0x08 then args.length == 1
  else if code == 0x09 || code == 0x0A then true
  else if code == 0x0B then
    match args with
    | [b] => isBoolByte b
    | _ => false
  else if code == 0x12 then args.length == 9
  else (decide (1 ≤ code.toNat) && decide (code.toNat ≤ 0x12)) && args.isEmpty

/-- The bytes of one record at the host port are a legal request (R71, R72): an assigned code with arguments in
their domains. -/
def legalRequest : List Byte → Bool
  | [] => false
  | code :: args => legalArgs code args

/-- Well-formed instructions: a glyph pattern is exactly 8 bytes (R72), and an illegal request's bytes are no legal
request (R84). -/
def Instr.wf : Instr → Bool
  | .defineCustomGlyph _ pattern => pattern.length == 8
  | .illegalRequest bytes => !legalRequest bytes
  | .init | .displayOn | .displayOff | .backlightOn | .backlightOff | .clear | .setCursor _ _ | .print _
  | .printText _ | .printWrapped _ | .autoscroll _ | .scrollLeft | .scrollRight | .textDirectionLeftToRight
  | .textDirectionRightToLeft | .home | .nextLine | .lcdClear | .lcdHome | .lcdEntry _ _ | .lcdDispCtl _ _ _
  | .lcdShift _ _ | .lcdFuncSet _ _ _ | .lcdSetCgram _ | .lcdSetDdram _ | .lcdData _ | .rawNibble3 | .rawNibble2
  | .frameEnHigh _ _ _ | .frameEnLow _ _ _ | .frameRawLatch _ | .tx _ => true

end Sys2Proof
end

