-- ==== Sys2Proof/Decode.lean ====
section
/-! DEFINITION. Decoding and encoding, one layer at a time (30_encoding.md R70): the same bits mean different things
in different layers (R75: the kind is fixed by position), so a layer is an argument. What the host puts at the port is
always of the layer `request`. Decoding is total; the lower layers reject by name, and the host port turns every
record that is no request into ILLEGAL_REQUEST (R84). -/

namespace Sys2Proof

/-- The place an encoding stands in (R70; for frames, the position in the micro-sequence, R75). -/
inductive Layer where
  /-- a record at the host port (R71) -/
  | request
  /-- an HD44780 byte with register-select 0 (R76) -/
  | command
  /-- an HD44780 byte with register-select 1 (R76) -/
  | data
  /-- a nibble sent without a partner, in init only (R80) -/
  | rawNibble
  /-- the first frame byte of a nibble frame (R75) -/
  | enHigh
  /-- the second frame byte of a nibble frame (R75) -/
  | enLow
  /-- the frame byte of a raw latch (R75, R108) -/
  | rawLatch
  /-- the two bytes of a bus transaction (R51, R100) -/
  | transaction
deriving DecidableEq, Repr

/-- Why bytes of a lower layer are no instruction. -/
inductive DecodeError where
  /-- the layer's encodings have another number of bytes -/
  | wrongLength
  /-- the command byte 0x00 is no command (R81) -/
  | notACommand
  /-- a command byte outside the patterns of R76, which the block never emits (R83) -/
  | neverEmitted
  /-- a raw nibble other than 0x3 and 0x2 (R80) -/
  | notARawNibble
  /-- a byte that is no frame byte of that position (R74, R75) -/
  | notAFrame
  /-- a transaction whose first byte is not 0x00 (R51) -/
  | wrongLead
deriving DecidableEq, Repr

/-- Mask `m` if the flag is set, else 0. -/
def flagBit (b : Bool) (m : Byte) : Byte := if b then m else 0

/-- Bit `k` of a byte (R9). -/
def bitOf (b : Byte) (k : Nat) : Bool := b.getLsbD k

/-- The requests without arguments, by code (R71). -/
def decodeBare (code : Byte) : Option Instr :=
  if code = 0x01 then some .init
  else if code = 0x02 then some .displayOn
  else if code = 0x03 then some .displayOff
  else if code = 0x04 then some .backlightOn
  else if code = 0x05 then some .backlightOff
  else if code = 0x06 then some .clear
  else if code = 0x0C then some .scrollLeft
  else if code = 0x0D then some .scrollRight
  else if code = 0x0E then some .textDirectionLeftToRight
  else if code = 0x0F then some .textDirectionRightToLeft
  else if code = 0x10 then some .home
  else if code = 0x11 then some .nextLine
  else none

/-- The request with code `code` and arguments `args`, if those are legal (R71, R72). -/
def decodeArgs (code : Byte) (args : List Byte) : Option Instr :=
  if code = 0x07 then
    match args with
    | [col, row] => some (.setCursor col row)
    | _ => none
  else if code = 0x08 then
    match args with
    | [ch] => some (.print ch)
    | _ => none
  else if code = 0x09 then some (.printText args)
  else if code = 0x0A then some (.printWrapped args)
  else if code = 0x0B then
    match args with
    | [b] => if b = 0x01 then some (.autoscroll true) else if b = 0x00 then some (.autoscroll false) else none
    | _ => none
  else if code = 0x12 then
    match args with
    | slot :: pattern => if pattern.length = 8 then some (.defineCustomGlyph slot pattern) else none
    | [] => none
  else
    match args with
    | [] => decodeBare code
    | _ => none

/-- Decode one record at the host port: the code byte, then the arguments in order (R71, R73). Everything that is no
request of this block is ILLEGAL_REQUEST (R84), an empty record too. -/
def decodeRequest (bytes : List Byte) : Instr :=
  match bytes with
  | [] => .illegalRequest []
  | code :: args => (decodeArgs code args).getD (.illegalRequest (code :: args))

/-- Decode a command byte by its highest set bit (R81), accepting exactly the patterns of R76. -/
def decodeCommand (b : Byte) : Except DecodeError Instr :=
  if bitOf b 7 then .ok (.lcdSetDdram (b.extractLsb' 0 7))
  else if bitOf b 6 then
    if b.extractLsb' 0 3 = 0 then .ok (.lcdSetCgram (b.extractLsb' 3 3)) else .error .neverEmitted
  else if bitOf b 5 then
    if b.extractLsb' 0 2 = 0 then .ok (.lcdFuncSet (bitOf b 4) (bitOf b 3) (bitOf b 2)) else .error .neverEmitted
  else if bitOf b 4 then
    if b.extractLsb' 0 2 = 0 then .ok (.lcdShift (bitOf b 3) (bitOf b 2)) else .error .neverEmitted
  else if bitOf b 3 then .ok (.lcdDispCtl (bitOf b 2) (bitOf b 1) (bitOf b 0))
  else if bitOf b 2 then .ok (.lcdEntry (bitOf b 1) (bitOf b 0))
  else if bitOf b 1 then
    if bitOf b 0 then .error .neverEmitted else .ok .lcdHome
  else if bitOf b 0 then .ok .lcdClear
  else .error .notACommand

/-- Decode a raw nibble, in the low four bits (R80). -/
def decodeRawNibble (b : Byte) : Except DecodeError Instr :=
  if b = 0x03 then .ok .rawNibble3 else if b = 0x02 then .ok .rawNibble2 else .error .notARawNibble

/-- Decode the first frame byte of a nibble frame: EN is 1 and RW is 0 (R74, R75). -/
def decodeEnHigh (b : Byte) : Except DecodeError Instr :=
  if bitOf b 2 && !bitOf b 1 then .ok (.frameEnHigh (b.extractLsb' 4 4) (bitOf b 3) (bitOf b 0)) else .error .notAFrame

/-- Decode the second frame byte of a nibble frame: EN is 0 and RW is 0 (R74, R75). -/
def decodeEnLow (b : Byte) : Except DecodeError Instr :=
  if !bitOf b 2 && !bitOf b 1 then .ok (.frameEnLow (b.extractLsb' 4 4) (bitOf b 3) (bitOf b 0)) else .error .notAFrame

/-- Decode the frame byte of a raw latch: the backlight bit alone (R75, R108). -/
def decodeRawLatch (b : Byte) : Except DecodeError Instr :=
  if b = 0x08 then .ok (.frameRawLatch true) else if b = 0x00 then .ok (.frameRawLatch false) else .error .notAFrame

/-- Decode any bytes in any layer. -/
def decode (layer : Layer) (bytes : List Byte) : Except DecodeError Instr :=
  match layer with
  | .request => .ok (decodeRequest bytes)
  | .command =>
    match bytes with
    | [b] => decodeCommand b
    | _ => .error .wrongLength
  | .data =>
    match bytes with
    | [b] => .ok (.lcdData b)
    | _ => .error .wrongLength
  | .rawNibble =>
    match bytes with
    | [b] => decodeRawNibble b
    | _ => .error .wrongLength
  | .enHigh =>
    match bytes with
    | [b] => decodeEnHigh b
    | _ => .error .wrongLength
  | .enLow =>
    match bytes with
    | [b] => decodeEnLow b
    | _ => .error .wrongLength
  | .rawLatch =>
    match bytes with
    | [b] => decodeRawLatch b
    | _ => .error .wrongLength
  | .transaction =>
    match bytes with
    | [lead, v] => if lead = 0x00 then .ok (.tx v) else .error .wrongLead
    | _ => .error .wrongLength

/-- A frame byte `NNNN B E 0 R` (R74). -/
def frameByte (nibble : Nibble) (light enable rs : Bool) : Byte :=
  (nibble.zeroExtend 8 <<< 4) ||| flagBit light 0x08 ||| flagBit enable 0x04 ||| flagBit rs 0x01

/-- The layer and the bytes of an instruction, from the tables of R71, R75, R76, R80 and R100. -/
def encode : Instr → Layer × List Byte
  | .init => (.request, [0x01])
  | .displayOn => (.request, [0x02])
  | .displayOff => (.request, [0x03])
  | .backlightOn => (.request, [0x04])
  | .backlightOff => (.request, [0x05])
  | .clear => (.request, [0x06])
  | .setCursor col row => (.request, [0x07, col, row])
  | .print ch => (.request, [0x08, ch])
  | .printText text => (.request, 0x09 :: text)
  | .printWrapped text => (.request, 0x0A :: text)
  | .autoscroll enable => (.request, [0x0B, flagBit enable 0x01])
  | .scrollLeft => (.request, [0x0C])
  | .scrollRight => (.request, [0x0D])
  | .textDirectionLeftToRight => (.request, [0x0E])
  | .textDirectionRightToLeft => (.request, [0x0F])
  | .home => (.request, [0x10])
  | .nextLine => (.request, [0x11])
  | .defineCustomGlyph slot pattern => (.request, 0x12 :: slot :: pattern)
  | .illegalRequest bytes => (.request, bytes)
  | .lcdClear => (.command, [0x01])
  | .lcdHome => (.command, [0x02])
  | .lcdEntry dir auto => (.command, [0x04 ||| flagBit dir 0x02 ||| flagBit auto 0x01])
  | .lcdDispCtl disp cursor blink => (.command, [0x08 ||| flagBit disp 0x04 ||| flagBit cursor 0x02 ||| flagBit blink 0x01])
  | .lcdShift move right => (.command, [0x10 ||| flagBit move 0x08 ||| flagBit right 0x04])
  | .lcdFuncSet eight twoLine font => (.command, [0x20 ||| flagBit eight 0x10 ||| flagBit twoLine 0x08 ||| flagBit font 0x04])
  | .lcdSetCgram slot => (.command, [0x40 ||| (slot.zeroExtend 8 <<< 3)])
  | .lcdSetDdram addr => (.command, [0x80 ||| addr.zeroExtend 8])
  | .lcdData byte => (.data, [byte])
  | .rawNibble3 => (.rawNibble, [0x03])
  | .rawNibble2 => (.rawNibble, [0x02])
  | .frameEnHigh nibble light rs => (.enHigh, [frameByte nibble light true rs])
  | .frameEnLow nibble light rs => (.enLow, [frameByte nibble light false rs])
  | .frameRawLatch light => (.rawLatch, [flagBit light 0x08])
  | .tx v => (.transaction, [0x00, v])

/-- The first `n` bytes of a number whose bit 0 is the least significant bit of the first byte. -/
def lowBytes : Nat → Nat → List Byte
  | 0, _ => []
  | n + 1, w => BitVec.ofNat 8 w :: lowBytes n (w / 256)

/-- How many bytes the shortest legal record with this code has (R71, R73); 1 for an unassigned code. -/
def requestLength (code : Byte) : Nat :=
  if code = 0x07 then 3
  else if code = 0x08 then 2
  else if code = 0x0B then 2
  else if code = 0x12 then 10
  else 1

/-- The record at the host port whose low `nbits` bits are `w`, its other bits 0 up to the length its code asks for. -/
def tableBytes (nbits w : Nat) : List Byte :=
  let given := lowBytes (max 1 (nbits / 8)) w
  given ++ List.replicate (requestLength (BitVec.ofNat 8 w) - given.length) 0

/-- What the decoder reads from a row of spec/opcode_table.json put at the host port. The table's word does not name
its layer, and what stands at the host port is a host request (R71, R84): a word of a lower layer is read as the
request it spells there (log entry 7). -/
def decodeTableWord (nbits w : Nat) : Option Instr := some (decodeRequest (tableBytes nbits w))

end Sys2Proof
end

