-- ==== Sys2Proof/Config.lean ====
section
/-! DEFINITION. What is fixed for one machine and does not change as it runs: the constructor's arguments, the two
parameters the spec gives a default (00_scope.md R7), and the free values (40_transmit.md R101, 10_state.md R38).
The wiring masks, flag bits, waits and opcodes of R7 and R8 stand in Machine/Params.lean. -/

namespace Sys2Proof

/-- The bus primitive's answer to one transaction (R101): a draw under no law. -/
inductive Answer where
  | ok
  | fail
deriving DecidableEq, Repr, Inhabited

/-- What a failed transaction left on the expander port (R38, R66, decision D25). -/
inductive PortDraw where
  /-- the port kept its old value -/
  | kept
  /-- the port shows the leading byte 0x00 of the transaction, possible only under `PREFIX_LATCHED` -/
  | lead
  /-- the port shows the frame byte -/
  | value
deriving DecidableEq, Repr, Inhabited

/-- `COLS` of the machine that `State.reset` constructs. DESIGN CHOICE (log entry 1): the spec leaves it to the
constructor's argument; 16 is the geometry of 95_test_vectors.md's conventions. -/
def Config.cols : Byte := 16

/-- `ROWS` of the machine that `State.reset` constructs. DESIGN CHOICE (log entry 1), as `Config.cols`. -/
def Config.rows : Byte := 2

/-- What the expander's port latch holds in `State.reset`. DESIGN CHOICE (log entry 22): before the first transaction the
spec calls it unknown (10_state.md R36, R38); no rule of the block reads it. -/
def Config.portAtReset : Byte := 0

/-- `BACKLIGHT_RESET` (R7, decision D6): on. -/
def Config.backlightReset : Bool := true

/-- `PREFIX_LATCHED` (R7, decision D5): the expander does not drive the leading 0x00 onto its port. -/
def Config.prefixLatched : Bool := false

/-- The bus's answer to the `n`-th transaction where the state lists no answer for it (R101): a free value, with no
body, so no proof can see it (log entry 3). -/
opaque Config.busAnswer : Nat → Answer

/-- What the `n`-th transaction leaves on the expander port if it is answered `fail` (R38, R66): a free value, with
no body (log entry 4). -/
opaque Config.failedWrite : Nat → PortDraw

end Sys2Proof
end

