-- ==== Sys2Proof/Machine/State.lean ====
section
/-! DEFINITION. The state of the block (10_state.md), the event trace (20_memory.md R56), the reasons a step can stop
with, and the state after construction (R36, R140, R230). The block has no memory of its own (R45, R64) and no general
registers (R20). -/

namespace Sys2Proof.Machine

/-- The fault reasons of 60_exceptions.md R204. -/
inductive FaultReason where
  /-- a request other than init while `Uninitialized` (R141, decision D7) -/
  | notReady
  /-- the transaction of backlightOn or backlightOff answered `fail` (R146, R147, decision D16) -/
  | backlightBusAbort
  /-- printWrapped with `cols = 0` and non-empty text (R152, decision D14) -/
  | divideByZero
  /-- a record at the host port that is no request (R84, decision D27) -/
  | illegalRequest
deriving DecidableEq, Repr

/-- The lifecycle states of R22. -/
inductive Lifecycle where
  | uninitialized
  | ready
  | faulted (reason : FaultReason)
deriving DecidableEq, Repr

/-- The error codes a request can return (R201), in the order of their numbers 1 to 5. -/
inductive ErrorCode where
  | busFailure
  | rowOutOfRange
  | unsupportedRowCount
  | nextLineUnsupported
  | glyphSlotOutOfRange
deriving DecidableEq, Repr

/-- What a request returns to the host (R30, R200). A request that faults returns nothing. -/
inductive Result where
  | ok
  | err (code : ErrorCode)
deriving DecidableEq, Repr

/-- The sequencer position (R21): idle between requests, or an index into the running micro-sequence. -/
inductive SeqPos where
  | idle
  | running (k : Nat)
deriving DecidableEq, Repr

/-- One event of the trace (R56): a bus transaction with its answer, or a wait of at least so many microseconds. -/
inductive Event where
  /-- `Tx(v, answer)`: the bus write of `[0x00, v]` to the expander -/
  | tx (v : Byte) (answer : Answer)
  /-- `Wait(t)`, `t` in microseconds, a lower bound (70_reset_and_hazards.md R245) -/
  | wait (micros : Nat)
deriving DecidableEq, Repr

/-- The state. The first eight fields are the block's own (R20 to R27, R35); `port` is the expander's latch that the
pulses are defined against (R38); `requests` and `answers` are inputs; `trace` and `results` are what an observer sees
(R56); `draws` is the model's own. -/
structure State where
  /-- R22 -/
  lifecycle : Lifecycle
  /-- R23: bit 1 `ID` (left-direction), bit 0 `S` (autoscroll) -/
  displayMode : Byte
  /-- R24: bit 2 `D` (display-on), bit 1 `C` (cursor), bit 0 `B` (blink) -/
  displayControl : Byte
  /-- R25: 1 is on -/
  backlight : Bool
  /-- R26 -/
  currentLine : Byte
  /-- R27, fixed at construction -/
  cols : Byte
  /-- R27, fixed at construction -/
  rows : Byte
  /-- R21 -/
  pc : SeqPos
  /-- R35: bookkeeping; no rule of the block reads it -/
  coherent : Bool
  /-- R38: the expander's port latch, outside the block: bit 7 to bit 4 data, then BL, EN, RW and RS. Its value before
  the first transaction is log entry 22 -/
  port : Byte
  /-- the host port (R219): the records the host issues, one after the other, each a code byte and its arguments -/
  requests : List (List Byte)
  /-- the bus port (R101, R207): the answers to the coming transactions, first to come first; a transaction past the
  end of the list takes the free value `Config.busAnswer` (log entry 3) -/
  answers : List Answer
  /-- the event trace (R56), oldest first -/
  trace : List Event
  /-- the results returned to the host (R30), oldest first -/
  results : List Result
  /-- the model's own: how many transactions have been made, which numbers the free values -/
  draws : Nat
deriving DecidableEq, Repr

/-- Why the machine stops. -/
inductive Fault where
  /-- Raised by `exec` and `step` in a state whose lifecycle is `Faulted(reason)`: once faulted, the block takes no
  further step (R204, R141, R212). Safe: the spec gives no step there. -/
  | halted (reason : FaultReason)
deriving DecidableEq, Repr

/-- Why an instruction has no meaning. -/
inductive Refusal where
  /-- Raised only by an arm of `exec` whose instruction has no meaning yet. Safe. No arm raises it. -/
  | notModelled (mnemonic : String)
deriving DecidableEq, Repr

/-- Construction (R140): the state a bus handle and a geometry give, with no event. `port` is what the expander's latch
holds by then: the spec calls it unknown (R36, R38), so it is an argument, and a claim about construction holds for every
value of it (log entry 22). `displayMode`, `displayControl`
and `currentLine` have no value in the spec (R36); 0 is a DESIGN CHOICE (log entry 2), and no request but init runs
before init has written them. -/
def State.construct (cols rows port : Byte) : State where
  lifecycle := .uninitialized
  displayMode := 0
  displayControl := 0
  backlight := Config.backlightReset
  currentLine := 0
  cols := cols
  rows := rows
  pc := .idle
  coherent := false
  port := port
  requests := []
  answers := []
  trace := []
  results := []
  draws := 0

/-- The machine right after reset, which is its construction (R230), with the geometry and the port value of
Config. -/
def State.reset : State := State.construct Config.cols Config.rows Config.portAtReset

end Sys2Proof.Machine
end

