-- ==== Sys2Proof/Machine/Ops.lean ====
section
/-! DEFINITION. The operations that touch the state: a transaction and a wait (00_scope.md R11), performing a
micro-sequence (10_state.md R21), ending a request with a result or a fault (42_operations.md R141, 60_exceptions.md
R200 to R206), the request frame, and taking a record from the host port. -/

namespace Sys2Proof.Machine

/-- One step of a micro-sequence (R15, R21). -/
inductive MicroOp where
  | tx (v : Byte)
  | wait (micros : Nat)
deriving DecidableEq, Repr

/-- How a part of a request goes: on, or out with a returned error (`raise`), or out with a fault (R11, R200). -/
inductive Flow where
  | go (s : State)
  | raise (code : ErrorCode) (s : State)
  | abort (reason : FaultReason) (s : State)
deriving DecidableEq, Repr

/-- `x?` and then the rest (42_operations.md): a part that raised or faulted ends the request. -/
def Flow.andThen : Flow → (State → Flow) → Flow
  | .go s, f => f s
  | .raise e s, _ => .raise e s
  | .abort r s, _ => .abort r s

/-- `pc <- pc + 1` (R21). A part performed on its own from `IDLE` starts at 0. -/
def SeqPos.advance : SeqPos → SeqPos
  | .idle => .running 1
  | .running k => .running (k + 1)

/-- The bus's answer to the next transaction (R101): the listed one, else the free value. -/
def nextAnswer (s : State) : Answer :=
  match s.answers with
  | a :: _ => a
  | [] => Config.busAnswer s.draws

/-- The expander port after `Tx(v)` (R38, R66, R67): after `ok` it holds `v`; after `fail` it is a draw among the old
value, `v`, and under `PREFIX_LATCHED` 0x00. -/
def portAfter (answer : Answer) (draw : PortDraw) (v : Byte) (old : Byte) : Byte :=
  match answer, draw with
  | .ok, _ => v
  | .fail, .kept => old
  | .fail, .lead => if Config.prefixLatched then frameLead else v
  | .fail, .value => v

/-- One transaction `Tx(v)`, whatever its answer (R11, R100): the event is recorded with the answer. -/
def transact (v : Byte) (s : State) : State :=
  { s with
    pc := s.pc.advance
    port := portAfter (nextAnswer s) (Config.failedWrite s.draws) v s.port
    answers := s.answers.tail
    trace := s.trace ++ [.tx v (nextAnswer s)]
    draws := s.draws + 1 }

/-- `Wait(t)` (R11): it completes (decision D2), and nothing else changes. -/
def delay (micros : Nat) (s : State) : State :=
  { s with pc := s.pc.advance, trace := s.trace ++ [.wait micros] }

/-- Perform a micro-sequence in list order (R21, R60). A transaction answered `fail` raises `BusFailure`: no later
transaction is made and no later wait begins (R12). -/
def perform : List MicroOp → State → Flow
  | [], s => .go s
  | .wait t :: rest, s => perform rest (delay t s)
  | .tx v :: rest, s =>
    match nextAnswer s with
    | .ok => perform rest (transact v s)
    | .fail => .raise .busFailure (transact v s)

/-- `send_byte(v)` (40_transmit.md R100): one transaction. -/
def sendByte (v : Byte) (s : State) : Flow := perform [.tx v] s

/-- Taking a fault `F(reason)` (R11, R204): the terminal lifecycle state. Nothing is saved (R206), no result is
returned, and the request is over, so the sequencer is idle (R21; log entry 9). There is no return from it, and no
return-from-error operation at all (R208). -/
def enterFault (reason : FaultReason) (s : State) : State := { s with lifecycle := .faulted reason, pc := .idle }

/-- Return a result to the host and go idle (R141, R206). `Err(BusFailure)` clears `coherent` (R35). -/
def returnResult (r : Result) (s : State) : State :=
  { s with
    pc := .idle
    coherent := if r = .err .busFailure then false else s.coherent
    results := s.results ++ [r] }

/-- The end of a request whose body went this way (R141, R200). -/
def endRequest : Flow → State
  | .go s => returnResult .ok s
  | .raise e s => returnResult (.err e) s
  | .abort r s => enterFault r s

/-- `pc <- 0`: a request loads its micro-sequence (R21, R141). -/
def loadSequence (s : State) : State := { s with pc := .running 0 }

/-- The frame of `init` (R141): any lifecycle but `Faulted`. -/
def runInit (body : State → Flow) (s : State) : Host.Outcome State Fault Refusal :=
  match s.lifecycle with
  | .faulted r => .fault (.halted r)
  | _ => .next (endRequest (body (loadSequence s)))

/-- The frame of every other well-formed request (R141, R205): `Faulted` takes no step, `Uninitialized` faults
`NotReady`, `Ready` runs the body. -/
def runRequest (body : State → Flow) (s : State) : Host.Outcome State Fault Refusal :=
  match s.lifecycle with
  | .faulted r => .fault (.halted r)
  | .uninitialized => .next (enterFault .notReady s)
  | .ready => .next (endRequest (body (loadSequence s)))

/-- The frame of a record that is no well-formed request (R84, R141): it faults before the Ready check. -/
def runIllegal (s : State) : Host.Outcome State Fault Refusal :=
  match s.lifecycle with
  | .faulted r => .fault (.halted r)
  | _ => .next (enterFault .illegalRequest s)

/-- An instruction of a lower layer, performed as a part of a request (R120, R100; log entry 8): no Ready check
(90_conflicts.md C8). If all goes well the sequencer goes on after it; a failed transaction ends the request it is
part of with `Err(BusFailure)` (R12, R141). -/
def runPart (body : State → Flow) (s : State) : Host.Outcome State Fault Refusal :=
  match s.lifecycle with
  | .faulted r => .fault (.halted r)
  | _ =>
    match body s with
    | .go s' => .next s'
    | .raise e s' => .next (returnResult (.err e) s')
    | .abort r s' => .next (enterFault r s')

/-- What stands at the host port of a block that is between requests. -/
inductive Fetch where
  /-- the block is in its terminal state (R204) -/
  | halted (reason : FaultReason)
  /-- no request is there -/
  | idle
  /-- the next record and the state without it -/
  | record (bytes : List Byte) (s : State)
deriving DecidableEq, Repr

/-- Take the next record from the host port (R219). Requests are taken one at a time, each to its end (R40). -/
def fetch (s : State) : Fetch :=
  match s.lifecycle, s.requests with
  | .faulted r, _ => .halted r
  | _, [] => .idle
  | _, bytes :: rest => .record bytes { s with requests := rest }

/-- A record put in front at the host port. -/
def placeRequest (bytes : List Byte) (s : State) : State := { s with requests := bytes :: s.requests }

end Sys2Proof.Machine
end

