-- ==== Sys2Proof/Machine/Transmit.lean ====
section
/-! DEFINITION. The transmit primitives (40_transmit.md R100 to R110) and the meanings of the rows made of them: the
bus transaction, the frame bytes and the raw nibbles. -/

namespace Sys2Proof.Machine

/-- The micro-sequence of one nibble frame, an enable pulse (R103). -/
def nibbleSeq (backlight : Bool) (d : Byte) (rs : Bool) : List MicroOp :=
  [.tx (frame backlight d rs true), .wait tPulse, .tx (frame backlight d rs false), .wait tCycle]

/-- The micro-sequence of one HD44780 byte, high nibble first (R105). -/
def sendSeq (backlight : Bool) (value : Byte) (rs : Bool) : List MicroOp :=
  nibbleSeq backlight (hiNibble value) rs ++ nibbleSeq backlight (loNibble value) rs

/-- `writeNibble(d, rs)` (R103); the frames carry the backlight flag of the state they are formed in (R102, R109). -/
def writeNibble (d : Byte) (rs : Bool) (s : State) : Flow := perform (nibbleSeq s.backlight d rs) s

/-- `send(value, modeBit)` (R105). -/
def send (value : Byte) (rs : Bool) (s : State) : Flow := perform (sendSeq s.backlight value rs) s

/-- `rawNibble(n)` (R107): no partner nibble, register-select 0. -/
def rawNibble (n : Nibble) (s : State) : Flow := writeNibble (nibbleData n) false s

/-- `rawLatch()` (R108): the backlight bit alone, no enable pulse, no wait. -/
def rawLatch (s : State) : Flow := sendByte (blMask s.backlight) s

/-- `Wait(t)` as a part of a request. -/
def waitFor (micros : Nat) (s : State) : Flow := perform [.wait micros] s

/-- TX (R100). On its own it sends any byte, those among them that no request forms (DESIGN CHOICE, log entry 20). -/
def execTx (v : Byte) (s : State) : Host.Outcome State Fault Refusal := runPart (sendByte v) s

/-- FRAME_EN_HIGH (R75, R103): the first transaction of a nibble frame. Bit 3 is the operand `light`, also where it is
not `BLMASK(s)`, a byte that R75 and R109 never form (DESIGN CHOICE, log entry 20). -/
def execFrameEnHigh (nibble : Nibble) (light rs : Bool) (s : State) : Host.Outcome State Fault Refusal :=
  runPart (sendByte (frame light (nibbleData nibble) rs true)) s

/-- FRAME_EN_LOW (R75, R103): the second transaction of a nibble frame. Bit 3 is the operand `light` (DESIGN CHOICE, log
entry 20, as for FRAME_EN_HIGH). -/
def execFrameEnLow (nibble : Nibble) (light rs : Bool) (s : State) : Host.Outcome State Fault Refusal :=
  runPart (sendByte (frame light (nibbleData nibble) rs false)) s

/-- FRAME_RAW_LATCH (R75, R108). What a failure does is the caller's choice (R108); on its own it is `BusFailure`, the
general rule of R12 (log entry 8). Bit 3 is the operand `light` (DESIGN CHOICE, log entry 20, as for FRAME_EN_HIGH). -/
def execFrameRawLatch (light : Bool) (s : State) : Host.Outcome State Fault Refusal :=
  runPart (sendByte (blMask light)) s

/-- RAW_NIBBLE_3 (R80, R107). -/
def execRawNibble3 (s : State) : Host.Outcome State Fault Refusal := runPart (rawNibble 0x3) s

/-- RAW_NIBBLE_2 (R80, R107). -/
def execRawNibble2 (s : State) : Host.Outcome State Fault Refusal := runPart (rawNibble 0x2) s

end Sys2Proof.Machine
end

