-- ==== Sys2Proof/Machine/Formatter.lean ====
section
/-! DEFINITION. The HD44780 4-bit command formatter (41_commands.md R120 to R130) and the meanings of the HD44780
rows. A formatter operation computes its operands from the state; the row's instruction carries them as its fields. -/

namespace Sys2Proof.Machine

/-- `cmd(b)` (R120): register-select 0. -/
def cmd (b : Byte) (s : State) : Flow := send b false s

/-- `dat(b)` (R120): register-select 1. -/
def dat (b : Byte) (s : State) : Flow := send b true s

/-- `fmtClear()` (R121): the settle wait is part of it. -/
def fmtClear (s : State) : Flow := (cmd opClear s).andThen (waitFor tSettle)

/-- `fmtHome()` (R122): the settle wait is part of it. -/
def fmtHome (s : State) : Flow := (cmd opHome s).andThen (waitFor tSettle)

/-- `fmtEntry()` (R123). -/
def fmtEntry (s : State) : Flow := cmd (entryByte s.displayMode) s

/-- `fmtDispCtl()` (R124). -/
def fmtDispCtl (s : State) : Flow := cmd (dispCtlByte s.displayControl) s

/-- `fmtShift(dir)` (R125): always display-move. -/
def fmtShift (right : Bool) (s : State) : Flow := cmd (shiftByte true right) s

/-- `fmtFuncSet()` (R126): 4-bit mode, 5×8 font, two lines when `rows > 1`. -/
def fmtFuncSet (s : State) : Flow := cmd (funcSetByte false (decide (1 < s.rows.toNat)) false) s

/-- `fmtSetCGRAM(slot)` (R127). -/
def fmtSetCgram (slot : Byte) (s : State) : Flow := cmd (setCgramByte slot) s

/-- `fmtSetDDRAM(addr)` (R128). -/
def fmtSetDdram (addr : Byte) (s : State) : Flow := cmd (setDdramByte addr) s

/-- `fmtData(b)` (R129). -/
def fmtData (b : Byte) (s : State) : Flow := dat b s

/-- CLEAR (R121). -/
def execLcdClear (s : State) : Host.Outcome State Fault Refusal := runPart fmtClear s

/-- HOME (R122). -/
def execLcdHome (s : State) : Host.Outcome State Fault Refusal := runPart fmtHome s

/-- ENTRY (R123) with its flags `I` and `S`. -/
def execLcdEntry (dir auto : Bool) (s : State) : Host.Outcome State Fault Refusal :=
  runPart (cmd (entryByte (maskIf dir flagID ||| maskIf auto flagS))) s

/-- DISPCTL (R124) with its flags `D`, `C` and `B`. -/
def execLcdDispCtl (disp cursor blink : Bool) (s : State) : Host.Outcome State Fault Refusal :=
  runPart (cmd (dispCtlByte (maskIf disp flagD ||| maskIf cursor flagC ||| maskIf blink flagB))) s

/-- SHIFT (R125) with its flags `M` and `R`. -/
def execLcdShift (move right : Bool) (s : State) : Host.Outcome State Fault Refusal :=
  runPart (cmd (shiftByte move right)) s

/-- FUNCSET (R126) with its flags `L`, `N` and `F`. -/
def execLcdFuncSet (eight twoLine font : Bool) (s : State) : Host.Outcome State Fault Refusal :=
  runPart (cmd (funcSetByte eight twoLine font)) s

/-- SETCGRAM (R127) with its slot. -/
def execLcdSetCgram (slot : BitVec 3) (s : State) : Host.Outcome State Fault Refusal :=
  runPart (fmtSetCgram (slot.zeroExtend 8)) s

/-- SETDDRAM (R128) with its address. -/
def execLcdSetDdram (addr : BitVec 7) (s : State) : Host.Outcome State Fault Refusal :=
  runPart (fmtSetDdram (addr.zeroExtend 8)) s

/-- DATA (R129). -/
def execLcdData (byte : Byte) (s : State) : Host.Outcome State Fault Refusal := runPart (fmtData byte) s

end Sys2Proof.Machine
end

