-- ==== Sys2Proof/Machine/Cursor.lean ====
section
/-! DEFINITION. The requests that place the cursor or move the window: clear, setCursor, scrollLeft, scrollRight, home,
nextLine (42_operations.md R148, R149, R154, R155, R158, R159). -/

namespace Sys2Proof.Machine

/-- `s.current_line <- row`. -/
def setCurrentLine (row : Byte) (s : State) : Flow := .go { s with currentLine := row }

/-- `body(clear)` (R148): `current_line` is written after the settle wait. init performs it too (R143). -/
def clearBody (s : State) : Flow := (fmtClear s).andThen (setCurrentLine 0)

/-- `body(home)` (R158): `current_line` keeps its value. -/
def homeBody (s : State) : Flow := fmtHome s

/-- `body(setCursor(col, row))` (R149): the row check, then the row-count check, then the send, then
`current_line`. -/
def setCursorBody (col row : Byte) (s : State) : Flow :=
  if s.rows ≤ row then .raise .rowOutOfRange s
  else
    match rowOffsets s.rows with
    | none => .raise .unsupportedRowCount s
    | some offsets => (fmtSetDdram (ddramAddr col (rowOffset offsets row)) s).andThen (setCurrentLine row)

/-- The row that line-advance goes to (R159): `current_line + 1` in 9 bits, 0 once it reaches `rows`. -/
def nextRow (currentLine rows : Byte) : Byte :=
  if rows.toNat ≤ currentLine.toNat + 1 then 0 else BitVec.ofNat 8 (currentLine.toNat + 1)

/-- `body(nextLine)` (R159): `current_line` is written before the cursor is placed. -/
def nextLineBody (s : State) : Flow :=
  if s.rows = 1 then .raise .nextLineUnsupported s
  else
    (setCurrentLine (nextRow s.currentLine s.rows) s).andThen (setCursorBody 0 (nextRow s.currentLine s.rows))

/-- `clear` (R148). -/
def execClear (s : State) : Host.Outcome State Fault Refusal := runRequest clearBody s

/-- `setCursor col, row` (R149). -/
def execSetCursor (col row : Byte) (s : State) : Host.Outcome State Fault Refusal := runRequest (setCursorBody col row) s

/-- `scrollLeft` (R154). -/
def execScrollLeft (s : State) : Host.Outcome State Fault Refusal := runRequest (fmtShift false) s

/-- `scrollRight` (R155). -/
def execScrollRight (s : State) : Host.Outcome State Fault Refusal := runRequest (fmtShift true) s

/-- `home` (R158). -/
def execHome (s : State) : Host.Outcome State Fault Refusal := runRequest homeBody s

/-- `nextLine` (R159). -/
def execNextLine (s : State) : Host.Outcome State Fault Refusal := runRequest nextLineBody s

end Sys2Proof.Machine
end

