-- ==== Sys2Proof/Machine/Flags.lean ====
section
/-! DEFINITION. The flag computations on `display_mode` and `display_control`: each setter is a read-modify-write of
one flag bit (10_state.md R28). The block has no condition flags (R30). -/

namespace Sys2Proof.Machine

/-- Set or clear the bits of a mask. -/
def assignBits (on : Bool) (mask field : Byte) : Byte := if on then field ||| mask else field &&& ~~~mask

/-- `displayOn` and `displayOff` (R144, R145): bit `D`; bits `C` and `B` are preserved. -/
def withDisplayOn (on : Bool) (displayControl : Byte) : Byte := assignBits on flagD displayControl

/-- `autoscroll` (R153): bit `S` is set to the argument, not inverted (90_conflicts.md C10). -/
def withAutoscroll (on : Bool) (displayMode : Byte) : Byte := assignBits on flagS displayMode

/-- The text direction requests (R156, R157): bit `ID`, 1 for left-to-right. -/
def withLeftDirection (on : Bool) (displayMode : Byte) : Byte := assignBits on flagID displayMode

/-- `display_control` after init: display on, cursor off, blink off (R143). -/
def initDisplayControl : Byte := flagD

/-- `display_mode` after init: left-direction, no autoscroll (R143). -/
def initDisplayMode : Byte := flagID

end Sys2Proof.Machine
end

