-- ==== Sys2Proof/Machine/Lifecycle.lean ====
section
/-! DEFINITION. init (42_operations.md R143, 70_reset_and_hazards.md R233) and the record that is no request
(30_encoding.md R84). -/

namespace Sys2Proof.Machine

/-- Steps 1 to 5 of the boot order (R233): power wait, backlight latch, the three 0x3 nibbles, the 0x2 nibble. -/
def resetNibbles (s : State) : Flow :=
  ((((((((waitFor tPower s).andThen rawLatch).andThen (waitFor tLatch)).andThen
    (rawNibble 0x3)).andThen (waitFor tResetNibble)).andThen
    (rawNibble 0x3)).andThen (waitFor tResetNibble)).andThen
    (rawNibble 0x3)).andThen fun s₁ => (waitFor tResetNibble s₁).andThen (rawNibble 0x2)

/-- Steps 6 to 10 of the boot order (R233): function set, display control, clear, entry mode, home. Each field is
written before its command is sent, `current_line` after clear's settle wait (R143). -/
def configureLcd (s : State) : Flow :=
  ((((fmtFuncSet s).andThen fun s₁ =>
    fmtDispCtl { s₁ with displayControl := initDisplayControl }).andThen
    clearBody).andThen fun s₂ =>
    fmtEntry { s₂ with displayMode := initDisplayMode }).andThen
    fmtHome

/-- `body(init)` (R143): it leaves `Ready` at once, and enters it only at the end. -/
def initBody (s : State) : Flow :=
  ((resetNibbles { s with lifecycle := .uninitialized }).andThen configureLcd).andThen fun s₁ =>
    .go { s₁ with lifecycle := .ready, coherent := true }

/-- `init` (R143). -/
def execInit (s : State) : Host.Outcome State Fault Refusal := runInit initBody s

/-- ILLEGAL_REQUEST (R84): the block takes the fault `IllegalRequest`, whatever the bytes. -/
def execIllegalRequest (_bytes : List Byte) (s : State) : Host.Outcome State Fault Refusal := runIllegal s

end Sys2Proof.Machine
end

