-- ==== Sys2Proof/Machine/Setters.lean ====
section
/-! DEFINITION. The setters (42_operations.md R142): each writes its field first and then sends, so a failed send
leaves the new value in the field. R144 to R147, R153, R156, R157. -/

namespace Sys2Proof.Machine

/-- Write `display_control`, then send it (R142, R144, R145). -/
def setDisplayControlBody (f : Byte → Byte) (s : State) : Flow :=
  fmtDispCtl { s with displayControl := f s.displayControl }

/-- Write `display_mode`, then send it (R142, R153, R156, R157). -/
def setDisplayModeBody (f : Byte → Byte) (s : State) : Flow :=
  fmtEntry { s with displayMode := f s.displayMode }

/-- A failed transaction of a backlight toggle is the fault `BacklightBusAbort`, not an error (R12, R146, R147). -/
def abortOnFailure : Flow → Flow
  | .raise .busFailure s => .abort .backlightBusAbort s
  | f => f

/-- `body(backlightOn)` and `body(backlightOff)` (R146, R147): write the flag, then one raw latch. -/
def backlightBody (on : Bool) (s : State) : Flow := abortOnFailure (rawLatch { s with backlight := on })

/-- `displayOn` (R144). -/
def execDisplayOn (s : State) : Host.Outcome State Fault Refusal :=
  runRequest (setDisplayControlBody (withDisplayOn true)) s

/-- `displayOff` (R145). -/
def execDisplayOff (s : State) : Host.Outcome State Fault Refusal :=
  runRequest (setDisplayControlBody (withDisplayOn false)) s

/-- `backlightOn` (R146). -/
def execBacklightOn (s : State) : Host.Outcome State Fault Refusal := runRequest (backlightBody true) s

/-- `backlightOff` (R147). -/
def execBacklightOff (s : State) : Host.Outcome State Fault Refusal := runRequest (backlightBody false) s

/-- `autoscroll on|off` (R153). -/
def execAutoscroll (enable : Bool) (s : State) : Host.Outcome State Fault Refusal :=
  runRequest (setDisplayModeBody (withAutoscroll enable)) s

/-- `textDirectionLeftToRight` (R156). -/
def execTextDirectionLeftToRight (s : State) : Host.Outcome State Fault Refusal :=
  runRequest (setDisplayModeBody (withLeftDirection true)) s

/-- `textDirectionRightToLeft` (R157). -/
def execTextDirectionRightToLeft (s : State) : Host.Outcome State Fault Refusal :=
  runRequest (setDisplayModeBody (withLeftDirection false)) s

end Sys2Proof.Machine
end

