-- ==== Sys2Proof/Machine/Text.lean ====
section
/-! DEFINITION. The requests that write data bytes: print, printText, printWrapped, defineCustomGlyph
(42_operations.md R150, R151, R152, R160). -/

namespace Sys2Proof.Machine

/-- Send data bytes in order, stopping at the first failure (R151, R160). -/
def dataBytes : List Byte → State → Flow
  | [], s => .go s
  | b :: rest, s => (fmtData b s).andThen (dataBytes rest)

/-- `body(print(ch))` (R150). -/
def printBody (ch : Byte) (s : State) : Flow := fmtData ch s

/-- The column of the `i`-th character (R152): `i mod cols`, `i` unbounded. -/
def wrapCol (cols : Byte) (i : Nat) : Byte := BitVec.ofNat 8 (i % cols.toNat)

/-- The row of the `i`-th character (R152): `i div cols`, and 0 for every row past the last (decision D14). -/
def wrapRow (cols rows : Byte) (i : Nat) : Byte :=
  if rows.toNat ≤ i / cols.toNat then 0 else BitVec.ofNat 8 (i / cols.toNat)

/-- `body(printWrapped(t))` from character `i` on (R152). -/
def printWrappedFrom : List Byte → Nat → State → Flow
  | [], _, s => .go s
  | ch :: rest, i, s =>
    if s.cols = 0 then .abort .divideByZero s
    else
      (setCursorBody (wrapCol s.cols i) (wrapRow s.cols s.rows i) s).andThen fun s₁ =>
        (fmtData ch s₁).andThen fun s₂ => printWrappedFrom rest (i + 1) s₂

/-- `body(defineCustomGlyph(slot, p))` (R160). -/
def defineCustomGlyphBody (slot : Byte) (pattern : List Byte) (s : State) : Flow :=
  if glyphSlots ≤ slot.toNat then .raise .glyphSlotOutOfRange s
  else (fmtSetCgram slot s).andThen (dataBytes pattern)

/-- `print ch` (R150). -/
def execPrint (ch : Byte) (s : State) : Host.Outcome State Fault Refusal := runRequest (printBody ch) s

/-- `printText text` (R151). -/
def execPrintText (text : List Byte) (s : State) : Host.Outcome State Fault Refusal := runRequest (dataBytes text) s

/-- `printWrapped text` (R152). -/
def execPrintWrapped (text : List Byte) (s : State) : Host.Outcome State Fault Refusal :=
  runRequest (printWrappedFrom text 0) s

/-- `defineCustomGlyph slot, pattern` (R160). A pattern of another length than 8 is outside the domains of R72, so
the request is no request (R84, vector E28). -/
def execDefineCustomGlyph (slot : Byte) (pattern : List Byte) (s : State) : Host.Outcome State Fault Refusal :=
  if pattern.length = glyphBytes then runRequest (defineCustomGlyphBody slot pattern) s else runIllegal s

end Sys2Proof.Machine
end

