-- ==== Sys2Proof/Machine/Dispatch.lean ====
section
/-! DEFINITION. One arm per instruction. -/

namespace Sys2Proof.Machine

def exec (i : Instr) (s : State) : Host.Outcome State Fault Refusal :=
  match i with
  | .init => Sys2Proof.Machine.execInit s
  | .displayOn => Sys2Proof.Machine.execDisplayOn s
  | .displayOff => Sys2Proof.Machine.execDisplayOff s
  | .backlightOn => Sys2Proof.Machine.execBacklightOn s
  | .backlightOff => Sys2Proof.Machine.execBacklightOff s
  | .clear => Sys2Proof.Machine.execClear s
  | .setCursor col row => Sys2Proof.Machine.execSetCursor col row s
  | .print ch => Sys2Proof.Machine.execPrint ch s
  | .printText text => Sys2Proof.Machine.execPrintText text s
  | .printWrapped text => Sys2Proof.Machine.execPrintWrapped text s
  | .autoscroll enable => Sys2Proof.Machine.execAutoscroll enable s
  | .scrollLeft => Sys2Proof.Machine.execScrollLeft s
  | .scrollRight => Sys2Proof.Machine.execScrollRight s
  | .textDirectionLeftToRight => Sys2Proof.Machine.execTextDirectionLeftToRight s
  | .textDirectionRightToLeft => Sys2Proof.Machine.execTextDirectionRightToLeft s
  | .home => Sys2Proof.Machine.execHome s
  | .nextLine => Sys2Proof.Machine.execNextLine s
  | .defineCustomGlyph slot pattern => Sys2Proof.Machine.execDefineCustomGlyph slot pattern s
  | .illegalRequest bytes => Sys2Proof.Machine.execIllegalRequest bytes s
  | .lcdClear => Sys2Proof.Machine.execLcdClear s
  | .lcdHome => Sys2Proof.Machine.execLcdHome s
  | .lcdEntry dir auto => Sys2Proof.Machine.execLcdEntry dir auto s
  | .lcdDispCtl disp cursor blink => Sys2Proof.Machine.execLcdDispCtl disp cursor blink s
  | .lcdShift move right => Sys2Proof.Machine.execLcdShift move right s
  | .lcdFuncSet eight twoLine font => Sys2Proof.Machine.execLcdFuncSet eight twoLine font s
  | .lcdSetCgram slot => Sys2Proof.Machine.execLcdSetCgram slot s
  | .lcdSetDdram addr => Sys2Proof.Machine.execLcdSetDdram addr s
  | .lcdData byte => Sys2Proof.Machine.execLcdData byte s
  | .rawNibble3 => Sys2Proof.Machine.execRawNibble3 s
  | .rawNibble2 => Sys2Proof.Machine.execRawNibble2 s
  | .frameEnHigh nibble light rs => Sys2Proof.Machine.execFrameEnHigh nibble light rs s
  | .frameEnLow nibble light rs => Sys2Proof.Machine.execFrameEnLow nibble light rs s
  | .frameRawLatch light => Sys2Proof.Machine.execFrameRawLatch light s
  | .tx v => Sys2Proof.Machine.execTx v s

end Sys2Proof.Machine
end

