-- ==== Sys2Proof/Machine/Step.lean ====
section
/-! DEFINITION. One step: the block takes the next record at the host port and performs that request to its end
(10_state.md R40); with no record there it stays idle (R21); once faulted it takes no step (R204). -/

namespace Sys2Proof.Machine

/-- One step of the block. -/
def step (s : State) : Host.Outcome State Fault Refusal :=
  match fetch s with
  | .halted r => .fault (.halted r)
  | .idle => .next s
  | .record bytes s' => exec (decodeRequest bytes) s'

/-- The state with the record of a table word first at the host port (log entry 7). -/
def State.withFetchWord (s : State) (nbits w : Nat) : State := placeRequest (tableBytes nbits w) s

end Sys2Proof.Machine
end

