-- ==== Sys2Proof/Safety.lean ====
section
/-! DEFINITION. The terms that claims use: which instructions a host issues, what the bus is going to answer, the
events a rule of the spec writes out, the state after them, what a downstream observer sees on the enable line, and
the invariants of the block. Nothing here is read by the machine. Byte values and waits are written out from the spec,
not taken from Machine/Params.lean. -/

namespace Sys2Proof.Safety

open Sys2Proof.Machine

/-! ### Instructions -/

/-- The instruction is a record at the host port (30_encoding.md R71, R84), not a part of a request. -/
def isRequest : Instr → Bool
  | .init | .displayOn | .displayOff | .backlightOn | .backlightOff | .clear | .setCursor _ _ | .print _
  | .printText _ | .printWrapped _ | .autoscroll _ | .scrollLeft | .scrollRight | .textDirectionLeftToRight
  | .textDirectionRightToLeft | .home | .nextLine | .defineCustomGlyph _ _ | .illegalRequest _ => true
  | .lcdClear | .lcdHome | .lcdEntry _ _ | .lcdDispCtl _ _ _ | .lcdShift _ _ | .lcdFuncSet _ _ _ | .lcdSetCgram _
  | .lcdSetDdram _ | .lcdData _ | .rawNibble3 | .rawNibble2 | .frameEnHigh _ _ _ | .frameEnLow _ _ _
  | .frameRawLatch _ | .tx _ => false

/-- The block is not in its terminal state (R204): the only states in which a step is taken. -/
def Alive (s : State) : Prop := ∀ r, s.lifecycle ≠ .faulted r

/-! ### The bus -/

/-- What the bus answers to the `k`-th transaction from here, counting from 0: the listed answer, else the free value
(40_transmit.md R101). -/
def answerAt (k : Nat) (s : State) : Answer := s.answers.getD k (Config.busAnswer (s.draws + k))

/-- The next `n` transactions are answered `ok`. -/
abbrev BusOk (n : Nat) (s : State) : Prop := ∀ k < n, answerAt k s = .ok

/-- The next `k` transactions are answered `ok` and the one after them `fail`. -/
abbrev BusFailsAt (k : Nat) (s : State) : Prop := BusOk k s ∧ answerAt k s = .fail

/-! ### Events -/

/-- The frame image of the backlight flag (10_state.md R25). -/
def lightImage (backlight : Bool) : Byte := if backlight then 0x08 else 0x00

/-- The frame image of register-select (30_encoding.md R74). -/
def modeBit (rs : Bool) : Byte := if rs then 0x01 else 0x00

/-- The events of one nibble frame whose enable-low byte is `f`, all answered `ok` (40_transmit.md R103, R106). -/
def nibbleEvents (f : Byte) : List Event := [.tx (f ||| 0x04) .ok, .wait 1, .tx f .ok, .wait 50]

/-- The events of an all-`ok` `send(value, modeBit)` (R106). -/
def sendEvents (backlight : Bool) (value : Byte) (rs : Bool) : List Event :=
  nibbleEvents ((value &&& 0xF0) ||| modeBit rs ||| lightImage backlight) ++
  nibbleEvents (((value <<< 4) &&& 0xF0) ||| modeBit rs ||| lightImage backlight)

/-- The events of sending data bytes in order. -/
def dataEvents (backlight : Bool) (bytes : List Byte) : List Event := bytes.flatMap fun b => sendEvents backlight b true

/-- The events of an all-`ok` init (42_operations.md R143). -/
def initEvents (backlight : Bool) (rows : Byte) : List Event :=
  [.wait 50000, .tx (lightImage backlight) .ok, .wait 1000] ++
  nibbleEvents (0x30 ||| lightImage backlight) ++ [.wait 4500] ++
  nibbleEvents (0x30 ||| lightImage backlight) ++ [.wait 4500] ++
  nibbleEvents (0x30 ||| lightImage backlight) ++ [.wait 4500] ++
  nibbleEvents (0x20 ||| lightImage backlight) ++
  sendEvents backlight (if 1 < rows.toNat then 0x28 else 0x20) false ++
  sendEvents backlight 0x0C false ++
  sendEvents backlight 0x01 false ++ [.wait 2000] ++
  sendEvents backlight 0x06 false ++
  sendEvents backlight 0x02 false ++ [.wait 2000]

/-- The row of printWrapped's `i`-th character (R152): `i div cols`, and 0 once that reaches `rows`. -/
def cellRow (cols rows : Byte) (i : Nat) : Nat := if rows.toNat ≤ i / cols.toNat then 0 else i / cols.toNat

/-- The command byte that addresses a cell (20_memory.md R50, 41_commands.md R128), given the row offsets. -/
def cellCommand (offsets : List Byte) (col row : Nat) : Byte :=
  0x80 ||| BitVec.ofNat 8 ((col + (offsets.getD row 0).toNat) % 256)

/-- The events of an all-`ok` printWrapped from character `i` on (R152). -/
def wrappedEvents (backlight : Bool) (cols rows : Byte) (offsets : List Byte) : Nat → List Byte → List Event
  | _, [] => []
  | i, ch :: rest =>
    sendEvents backlight (cellCommand offsets (i % cols.toNat) (cellRow cols rows i)) false ++
    sendEvents backlight ch true ++ wrappedEvents backlight cols rows offsets (i + 1) rest

/-- How many transactions a list of events holds. -/
def txCount : List Event → Nat
  | [] => 0
  | .wait _ :: rest => txCount rest
  | .tx _ _ :: rest => txCount rest + 1

/-- The events up to the `k`-th transaction, counting from 0, with that one answered `fail` (00_scope.md R12, R110). -/
def failedAt : Nat → List Event → List Event
  | _, [] => []
  | k, .wait t :: rest => .wait t :: failedAt k rest
  | 0, .tx v _ :: _ => [.tx v .fail]
  | k + 1, .tx v a :: rest => .tx v a :: failedAt k rest

/-- The event is a transaction answered `fail`. -/
def isFail : Event → Bool
  | .tx _ .fail => true
  | .tx _ .ok => false
  | .wait _ => false

/-- The least time the events take, in microseconds, transactions excluded (70_reset_and_hazards.md R245, R246). -/
def minMicros : List Event → Nat
  | [] => 0
  | .wait t :: rest => t + minMicros rest
  | .tx _ _ :: rest => minMicros rest

/-- The frame byte of every transaction among the events has a property. -/
def EveryFrame (p : Byte → Prop) (evs : List Event) : Prop := ∀ v a, Event.tx v a ∈ evs → p v

/-! ### The state after events -/

/-- The values the expander port may hold after the events (10_state.md R38, 20_memory.md R66, R67, with
`PREFIX_LATCHED = false`): the last frame byte answered `ok`; after a `fail`, the old value or the frame byte. -/
def portsAfter : List Event → Byte → List Byte
  | [], p => [p]
  | .wait _ :: rest, p => portsAfter rest p
  | .tx v .ok :: rest, _ => portsAfter rest (v)
  | .tx v .fail :: rest, p => portsAfter rest p ++ portsAfter rest (v)

/-- The sequencer position `n` steps on (10_state.md R21). -/
def advanceBy (n : Nat) : SeqPos → SeqPos
  | .idle => if n = 0 then .idle else .running n
  | .running k => .running (k + n)

/-- The state `s` after the events, with the port holding `p`. -/
def emitted (evs : List Event) (p : Byte) (s : State) : State :=
  { s with
    pc := advanceBy evs.length s.pc
    port := p
    answers := s.answers.drop (txCount evs)
    trace := s.trace ++ evs
    draws := s.draws + txCount evs }

/-- The state `s` after events that were all answered `ok`: the port holds the last frame byte (R67). -/
def afterOk (evs : List Event) (s : State) : State := emitted evs ((portsAfter evs s.port).headD s.port) s

/-- A result is returned to the host and the block is idle (42_operations.md R141). -/
def returned (r : Result) (s : State) : State := { s with pc := .idle, results := s.results ++ [r] }

/-- A bus failure is returned to the host (R141, R202): `coherent` is cleared. -/
def busFailed (s : State) : State := { returned (.err .busFailure) s with coherent := false }

/-- The outcome of a run whose all-`ok` events are `evs` and whose `k`-th transaction fails (R12, R202): the events end
at it, the port holds one of the possible values, and apart from that the state is `s`. -/
def FailsAt (k : Nat) (evs : List Event) (s : State) (o : Host.Outcome State Fault Refusal) : Prop :=
  ∃ p ∈ portsAfter (failedAt k evs) s.port, o = .next (busFailed (emitted (failedAt k evs) p s))

/-- The outcome of an instruction performed as a part of a request, whose all-`ok` events are `evs`: the sequencer goes
on after them, or the request ends at the failed transaction. -/
def SendsPart (evs : List Event) (s : State) (o : Host.Outcome State Fault Refusal) : Prop :=
  (BusOk (txCount evs) s → o = .next (afterOk evs s)) ∧
  ∀ k < txCount evs, BusFailsAt k s → FailsAt k evs s o

/-- The state after a fault (60_exceptions.md R204): terminal, idle, and otherwise as it was. -/
def faultedWith (r : FaultReason) (s : State) : State := { s with lifecycle := .faulted r, pc := .idle }

/-- What a request does from `Ready` whose all-`ok` events are `evs` (42_operations.md R141, R142): the fields of
`before` are written first and stay written if a transaction fails; those of `after` are written at the end, when all
has gone well. -/
def RequestSends (i : Instr) (before after : State → State) (evs : State → List Event) : Prop :=
  ∀ s : State, s.lifecycle = .ready →
    (BusOk (txCount (evs s)) s → exec i s = .next (returned .ok (after (afterOk (evs s) (before s))))) ∧
    ∀ k < txCount (evs s), BusFailsAt k s → FailsAt k (evs s) (before s) (exec i s)

/-- The row offsets of a supported row count (10_state.md R33). -/
def RowTable (rows : Byte) (offsets : List Byte) : Prop :=
  (rows = 1 ∧ offsets = [0x00]) ∨ (rows = 2 ∧ offsets = [0x00, 0x40]) ∨
  (rows = 4 ∧ offsets = [0x00, 0x40, 0x14, 0x54])

/-- The row count is none of 1, 2 and 4 (R33, R201). -/
def UnsupportedRows (rows : Byte) : Prop := rows ≠ 1 ∧ rows ≠ 2 ∧ rows ≠ 4

/-- The row after `current_line` (R159): computed without wrapping at 256, and 0 once it reaches `rows`. -/
def lineAfter (currentLine rows : Byte) : Byte :=
  if rows.toNat ≤ currentLine.toNat + 1 then 0 else BitVec.ofNat 8 (currentLine.toNat + 1)

/-- `current_line` when printWrapped's transaction `k` is made (R152): the row of the last character whose setCursor is
over, each character taking four transactions for its setCursor and four for its data. -/
def wrappedLine (s : State) (k : Nat) : Byte :=
  if (k + 4) / 8 = 0 then s.currentLine else BitVec.ofNat 8 (cellRow s.cols s.rows ((k + 4) / 8 - 1))

/-! ### A downstream observer

What the enable line shows an HD44780 behind the expander. The HD44780's own behaviour is outside the model (00_scope.md
R5); that a falling edge of EN latches the data lines is the source's enable pulse (20_memory.md R57, R14). -/

/-- The nibbles latched by the falling edges of EN, with their register-select bits, given EN before the events. After a
failed transaction nothing is known (R66), so the observation ends there. -/
def latched : Bool → List Event → List (Nibble × Bool)
  | _, [] => []
  | en, .wait _ :: rest => latched en rest
  | _, .tx _ .fail :: _ => []
  | en, .tx v .ok :: rest =>
    if en && !v.getLsbD 2 then (v.extractLsb' 4 4, v.getLsbD 0) :: latched (v.getLsbD 2) rest
    else latched (v.getLsbD 2) rest

/-- Nibbles paired into bytes, high nibble first (20_memory.md R52). Where the two nibbles of a byte differ in their
register-select bits (the mispairing of 70_reset_and_hazards.md R238), the spec does not say which bit governs, and the
observer takes the first nibble's (DESIGN CHOICE, log entry 21). -/
def paired : List (Nibble × Bool) → List (Byte × Bool)
  | (hi, rs) :: (lo, _) :: rest => (hi ++ lo, rs) :: paired rest
  | [_] => []
  | [] => []

/-- The bytes and register-select bits that the events deliver, from a low enable line and an even nibble phase. -/
def delivered (evs : List Event) : List (Byte × Bool) := paired (latched false evs)

/-- The command bytes the block emits (30_encoding.md R82). -/
def isEmittedCommand (b : Byte) : Bool :=
  [0x01, 0x02, 0x04, 0x05, 0x06, 0x07, 0x08, 0x0C, 0x18, 0x1C, 0x20, 0x28, 0x40, 0x48, 0x50, 0x58, 0x60, 0x68, 0x70,
    0x78].contains b || b.getLsbD 7

/-- What an HD44780 expects next on its bus, as far as 70_reset_and_hazards.md R234 names it: the whole 8-bit interface,
or in 4-bit mode a high nibble, or a low nibble after the high nibble it holds. The register-select bit of the held
nibble is not kept (DESIGN CHOICE, log entry 21; see `phaseStep`). -/
inductive LcdPhase where
  | eightBit
  | highNext
  | lowNext (hi : Nibble)
deriving DecidableEq, Repr

/-- The interface width a function-set byte selects (41_commands.md R126: bit 4 is 8-bit), for a whole byte that
arrives in 4-bit mode. -/
def phaseAfterByte (b : Byte) : LcdPhase :=
  if b.extractLsb' 5 3 = 0b001 then (if b.getLsbD 4 then .eightBit else .highNext) else .highNext

/-- One latched command nibble on the four wired data lines (R234). In 8-bit mode it is the upper half of a byte. A held
high nibble and this one are read as a command byte, also where the held one was latched with register-select 1 (a data
send that failed, R238): the spec does not say which nibble's bit governs (DESIGN CHOICE, log entry 21). Read as data, the
byte would leave the interface at `highNext`. -/
def phaseStep (p : LcdPhase) (n : Nibble) : LcdPhase :=
  match p with
  | .eightBit => if n.extractLsb' 1 3 = 0b001 then (if n.getLsbD 0 then .eightBit else .highNext) else .eightBit
  | .highNext => .lowNext n
  | .lowNext hi => phaseAfterByte (hi ++ n)

/-! ### Timing of the enable pulse -/

/-- After an enable-high transaction answered `ok` come a wait of at least 1 µs and the same frame byte with EN clear, and
if that is answered `ok` a wait of at least 50 µs (70_reset_and_hazards.md R235, R236). -/
def pulseComplete (v : Byte) : List Event → Bool
  | .wait t :: .tx w .ok :: .wait u :: _ => decide (1 ≤ t) && decide (50 ≤ u) && w == v &&& 0xFB
  | .wait t :: .tx w .fail :: _ => decide (1 ≤ t) && w == v &&& 0xFB
  | _ => false

/-- Every enable pulse in the events is complete (R235, R236). -/
def pulsesTimed : List Event → Bool
  | [] => true
  | .wait _ :: rest => pulsesTimed rest
  | .tx _ .fail :: rest => pulsesTimed rest
  | .tx v .ok :: rest => (!v.getLsbD 2 || pulseComplete v rest) && pulsesTimed rest

/-! ### Invariants -/

/-- The block's invariant, kept by every step from every state. -/
structure Inv (s : State) : Prop where
  /-- 10_state.md R28: only the documented flag bits of `display_mode` are set. -/
  mode : s.lifecycle = .ready → s.displayMode &&& 0xFC = 0
  /-- R28, and R124: the cursor and blink bits are 0 too, as no request sets them. -/
  control : s.lifecycle = .ready → s.displayControl &&& 0xFB = 0
  /-- R26: `current_line` is a row of the display, or 0. -/
  line : s.lifecycle = .ready → s.currentLine = 0 ∨ s.currentLine.toNat < s.rows.toNat
  /-- R35: `coherent` is set only by a successful init. -/
  coherence : s.lifecycle = .uninitialized → s.coherent = false
  /-- R21: the sequencer is idle between requests, and after a fault too (log entry 9). -/
  idle : s.pc = .idle

/-- What every trace satisfies: RW is 0 in every frame byte (20_memory.md R46), and every enable pulse is timed. -/
structure TraceInv (s : State) : Prop where
  rwLow : EveryFrame (fun v => v.getLsbD 1 = false) s.trace
  timed : pulsesTimed s.trace = true

/-- Two states that differ only in the three fields the spec gives no value before init (10_state.md R36). -/
def AgreeButUnset (s t : State) : Prop :=
  { s with displayMode := 0, displayControl := 0, currentLine := 0 } =
  { t with displayMode := 0, displayControl := 0, currentLine := 0 }

end Sys2Proof.Safety
end

