-- ==== Sys2Proof/Laws/State.lean ====
section
/-! SUPPORT. One lemma per field for each update of the state that has a name, so that no proof unfolds it. -/

namespace Sys2Proof.Machine

open Sys2Proof.Safety

/-! A wait changes the trace and the sequencer position. -/

@[simp] theorem delay_lifecycle (t : Nat) (s : State) : (delay t s).lifecycle = s.lifecycle := rfl
@[simp] theorem delay_displayMode (t : Nat) (s : State) : (delay t s).displayMode = s.displayMode := rfl
@[simp] theorem delay_displayControl (t : Nat) (s : State) : (delay t s).displayControl = s.displayControl := rfl
@[simp] theorem delay_backlight (t : Nat) (s : State) : (delay t s).backlight = s.backlight := rfl
@[simp] theorem delay_currentLine (t : Nat) (s : State) : (delay t s).currentLine = s.currentLine := rfl
@[simp] theorem delay_cols (t : Nat) (s : State) : (delay t s).cols = s.cols := rfl
@[simp] theorem delay_rows (t : Nat) (s : State) : (delay t s).rows = s.rows := rfl
@[simp] theorem delay_pc (t : Nat) (s : State) : (delay t s).pc = s.pc.advance := rfl
@[simp] theorem delay_coherent (t : Nat) (s : State) : (delay t s).coherent = s.coherent := rfl
@[simp] theorem delay_port (t : Nat) (s : State) : (delay t s).port = s.port := rfl
@[simp] theorem delay_requests (t : Nat) (s : State) : (delay t s).requests = s.requests := rfl
@[simp] theorem delay_answers (t : Nat) (s : State) : (delay t s).answers = s.answers := rfl
@[simp] theorem delay_trace (t : Nat) (s : State) : (delay t s).trace = s.trace ++ [.wait t] := rfl
@[simp] theorem delay_results (t : Nat) (s : State) : (delay t s).results = s.results := rfl
@[simp] theorem delay_draws (t : Nat) (s : State) : (delay t s).draws = s.draws := rfl

/-! A transaction changes the trace, the sequencer position, the port, and takes one answer. -/

@[simp] theorem transact_lifecycle (v : Byte) (s : State) : (transact v s).lifecycle = s.lifecycle := rfl
@[simp] theorem transact_displayMode (v : Byte) (s : State) : (transact v s).displayMode = s.displayMode := rfl
@[simp] theorem transact_displayControl (v : Byte) (s : State) :
    (transact v s).displayControl = s.displayControl := rfl
@[simp] theorem transact_backlight (v : Byte) (s : State) : (transact v s).backlight = s.backlight := rfl
@[simp] theorem transact_currentLine (v : Byte) (s : State) : (transact v s).currentLine = s.currentLine := rfl
@[simp] theorem transact_cols (v : Byte) (s : State) : (transact v s).cols = s.cols := rfl
@[simp] theorem transact_rows (v : Byte) (s : State) : (transact v s).rows = s.rows := rfl
@[simp] theorem transact_pc (v : Byte) (s : State) : (transact v s).pc = s.pc.advance := rfl
@[simp] theorem transact_coherent (v : Byte) (s : State) : (transact v s).coherent = s.coherent := rfl
@[simp] theorem transact_port (v : Byte) (s : State) :
    (transact v s).port = portAfter (nextAnswer s) (Config.failedWrite s.draws) v s.port := rfl
@[simp] theorem transact_requests (v : Byte) (s : State) : (transact v s).requests = s.requests := rfl
@[simp] theorem transact_answers (v : Byte) (s : State) : (transact v s).answers = s.answers.tail := rfl
@[simp] theorem transact_trace (v : Byte) (s : State) :
    (transact v s).trace = s.trace ++ [.tx v (nextAnswer s)] := rfl
@[simp] theorem transact_results (v : Byte) (s : State) : (transact v s).results = s.results := rfl
@[simp] theorem transact_draws (v : Byte) (s : State) : (transact v s).draws = s.draws + 1 := rfl

/-! A fault changes the lifecycle and the sequencer position. -/

@[simp] theorem enterFault_lifecycle (r : FaultReason) (s : State) : (enterFault r s).lifecycle = .faulted r := rfl
@[simp] theorem enterFault_displayMode (r : FaultReason) (s : State) :
    (enterFault r s).displayMode = s.displayMode := rfl
@[simp] theorem enterFault_displayControl (r : FaultReason) (s : State) :
    (enterFault r s).displayControl = s.displayControl := rfl
@[simp] theorem enterFault_backlight (r : FaultReason) (s : State) : (enterFault r s).backlight = s.backlight := rfl
@[simp] theorem enterFault_currentLine (r : FaultReason) (s : State) :
    (enterFault r s).currentLine = s.currentLine := rfl
@[simp] theorem enterFault_cols (r : FaultReason) (s : State) : (enterFault r s).cols = s.cols := rfl
@[simp] theorem enterFault_rows (r : FaultReason) (s : State) : (enterFault r s).rows = s.rows := rfl
@[simp] theorem enterFault_pc (r : FaultReason) (s : State) : (enterFault r s).pc = .idle := rfl
@[simp] theorem enterFault_coherent (r : FaultReason) (s : State) : (enterFault r s).coherent = s.coherent := rfl
@[simp] theorem enterFault_port (r : FaultReason) (s : State) : (enterFault r s).port = s.port := rfl
@[simp] theorem enterFault_requests (r : FaultReason) (s : State) : (enterFault r s).requests = s.requests := rfl
@[simp] theorem enterFault_answers (r : FaultReason) (s : State) : (enterFault r s).answers = s.answers := rfl
@[simp] theorem enterFault_trace (r : FaultReason) (s : State) : (enterFault r s).trace = s.trace := rfl
@[simp] theorem enterFault_results (r : FaultReason) (s : State) : (enterFault r s).results = s.results := rfl
@[simp] theorem enterFault_draws (r : FaultReason) (s : State) : (enterFault r s).draws = s.draws := rfl

/-! Returning a result changes the results, the sequencer position and, for a bus failure, `coherent`. -/

@[simp] theorem returnResult_lifecycle (r : Result) (s : State) : (returnResult r s).lifecycle = s.lifecycle := rfl
@[simp] theorem returnResult_displayMode (r : Result) (s : State) :
    (returnResult r s).displayMode = s.displayMode := rfl
@[simp] theorem returnResult_displayControl (r : Result) (s : State) :
    (returnResult r s).displayControl = s.displayControl := rfl
@[simp] theorem returnResult_backlight (r : Result) (s : State) : (returnResult r s).backlight = s.backlight := rfl
@[simp] theorem returnResult_currentLine (r : Result) (s : State) :
    (returnResult r s).currentLine = s.currentLine := rfl
@[simp] theorem returnResult_cols (r : Result) (s : State) : (returnResult r s).cols = s.cols := rfl
@[simp] theorem returnResult_rows (r : Result) (s : State) : (returnResult r s).rows = s.rows := rfl
@[simp] theorem returnResult_pc (r : Result) (s : State) : (returnResult r s).pc = .idle := rfl
@[simp] theorem returnResult_coherent (r : Result) (s : State) :
    (returnResult r s).coherent = if r = .err .busFailure then false else s.coherent := rfl
@[simp] theorem returnResult_port (r : Result) (s : State) : (returnResult r s).port = s.port := rfl
@[simp] theorem returnResult_requests (r : Result) (s : State) : (returnResult r s).requests = s.requests := rfl
@[simp] theorem returnResult_answers (r : Result) (s : State) : (returnResult r s).answers = s.answers := rfl
@[simp] theorem returnResult_trace (r : Result) (s : State) : (returnResult r s).trace = s.trace := rfl
@[simp] theorem returnResult_results (r : Result) (s : State) :
    (returnResult r s).results = s.results ++ [r] := rfl
@[simp] theorem returnResult_draws (r : Result) (s : State) : (returnResult r s).draws = s.draws := rfl

/-! Loading a micro-sequence changes the sequencer position. -/

@[simp] theorem loadSequence_lifecycle (s : State) : (loadSequence s).lifecycle = s.lifecycle := rfl
@[simp] theorem loadSequence_displayMode (s : State) : (loadSequence s).displayMode = s.displayMode := rfl
@[simp] theorem loadSequence_displayControl (s : State) : (loadSequence s).displayControl = s.displayControl := rfl
@[simp] theorem loadSequence_backlight (s : State) : (loadSequence s).backlight = s.backlight := rfl
@[simp] theorem loadSequence_currentLine (s : State) : (loadSequence s).currentLine = s.currentLine := rfl
@[simp] theorem loadSequence_cols (s : State) : (loadSequence s).cols = s.cols := rfl
@[simp] theorem loadSequence_rows (s : State) : (loadSequence s).rows = s.rows := rfl
@[simp] theorem loadSequence_pc (s : State) : (loadSequence s).pc = .running 0 := rfl
@[simp] theorem loadSequence_coherent (s : State) : (loadSequence s).coherent = s.coherent := rfl
@[simp] theorem loadSequence_port (s : State) : (loadSequence s).port = s.port := rfl
@[simp] theorem loadSequence_requests (s : State) : (loadSequence s).requests = s.requests := rfl
@[simp] theorem loadSequence_answers (s : State) : (loadSequence s).answers = s.answers := rfl
@[simp] theorem loadSequence_trace (s : State) : (loadSequence s).trace = s.trace := rfl
@[simp] theorem loadSequence_results (s : State) : (loadSequence s).results = s.results := rfl
@[simp] theorem loadSequence_draws (s : State) : (loadSequence s).draws = s.draws := rfl

end Sys2Proof.Machine

namespace Sys2Proof.Safety

open Sys2Proof.Machine

/-! The state after events. -/

@[simp] theorem emitted_lifecycle (e : List Event) (p : Byte) (s : State) :
    (emitted e p s).lifecycle = s.lifecycle := rfl
@[simp] theorem emitted_displayMode (e : List Event) (p : Byte) (s : State) :
    (emitted e p s).displayMode = s.displayMode := rfl
@[simp] theorem emitted_displayControl (e : List Event) (p : Byte) (s : State) :
    (emitted e p s).displayControl = s.displayControl := rfl
@[simp] theorem emitted_backlight (e : List Event) (p : Byte) (s : State) :
    (emitted e p s).backlight = s.backlight := rfl
@[simp] theorem emitted_currentLine (e : List Event) (p : Byte) (s : State) :
    (emitted e p s).currentLine = s.currentLine := rfl
@[simp] theorem emitted_cols (e : List Event) (p : Byte) (s : State) : (emitted e p s).cols = s.cols := rfl
@[simp] theorem emitted_rows (e : List Event) (p : Byte) (s : State) : (emitted e p s).rows = s.rows := rfl
@[simp] theorem emitted_pc (e : List Event) (p : Byte) (s : State) :
    (emitted e p s).pc = advanceBy e.length s.pc := rfl
@[simp] theorem emitted_coherent (e : List Event) (p : Byte) (s : State) :
    (emitted e p s).coherent = s.coherent := rfl
@[simp] theorem emitted_port (e : List Event) (p : Byte) (s : State) : (emitted e p s).port = p := rfl
@[simp] theorem emitted_requests (e : List Event) (p : Byte) (s : State) :
    (emitted e p s).requests = s.requests := rfl
@[simp] theorem emitted_answers (e : List Event) (p : Byte) (s : State) :
    (emitted e p s).answers = s.answers.drop (txCount e) := rfl
@[simp] theorem emitted_trace (e : List Event) (p : Byte) (s : State) :
    (emitted e p s).trace = s.trace ++ e := rfl
@[simp] theorem emitted_results (e : List Event) (p : Byte) (s : State) :
    (emitted e p s).results = s.results := rfl
@[simp] theorem emitted_draws (e : List Event) (p : Byte) (s : State) :
    (emitted e p s).draws = s.draws + txCount e := rfl

@[simp] theorem afterOk_lifecycle (e : List Event) (s : State) : (afterOk e s).lifecycle = s.lifecycle := rfl
@[simp] theorem afterOk_displayMode (e : List Event) (s : State) : (afterOk e s).displayMode = s.displayMode := rfl
@[simp] theorem afterOk_displayControl (e : List Event) (s : State) :
    (afterOk e s).displayControl = s.displayControl := rfl
@[simp] theorem afterOk_backlight (e : List Event) (s : State) : (afterOk e s).backlight = s.backlight := rfl
@[simp] theorem afterOk_currentLine (e : List Event) (s : State) : (afterOk e s).currentLine = s.currentLine := rfl
@[simp] theorem afterOk_cols (e : List Event) (s : State) : (afterOk e s).cols = s.cols := rfl
@[simp] theorem afterOk_rows (e : List Event) (s : State) : (afterOk e s).rows = s.rows := rfl
@[simp] theorem afterOk_pc (e : List Event) (s : State) : (afterOk e s).pc = advanceBy e.length s.pc := rfl
@[simp] theorem afterOk_coherent (e : List Event) (s : State) : (afterOk e s).coherent = s.coherent := rfl
@[simp] theorem afterOk_requests (e : List Event) (s : State) : (afterOk e s).requests = s.requests := rfl
@[simp] theorem afterOk_answers (e : List Event) (s : State) :
    (afterOk e s).answers = s.answers.drop (txCount e) := rfl
@[simp] theorem afterOk_trace (e : List Event) (s : State) : (afterOk e s).trace = s.trace ++ e := rfl
@[simp] theorem afterOk_results (e : List Event) (s : State) : (afterOk e s).results = s.results := rfl
@[simp] theorem afterOk_draws (e : List Event) (s : State) : (afterOk e s).draws = s.draws + txCount e := rfl

end Sys2Proof.Safety
end

