-- ==== Sys2Proof/Laws/Bus.lean ====
section
/-! SUPPORT. The bus's coming answers, and lists of events: how they count, fail and compose. -/

namespace Sys2Proof.Safety

open Sys2Proof.Machine

theorem nextAnswer_eq_answerAt (s : State) : nextAnswer s = answerAt 0 s := by
  unfold nextAnswer answerAt
  cases s.answers <;> simp

/-- Every state either answers `ok` to the next `n` transactions, or fails at one of them. -/
theorem busOk_or_failsAt (n : Nat) (s : State) : BusOk n s ∨ ∃ k < n, BusFailsAt k s := by
  induction n with
  | zero => exact .inl fun k hk => absurd hk (Nat.not_lt_zero k)
  | succ n ih =>
    rcases ih with h | ⟨k, hk, hf⟩
    · cases ha : answerAt n s with
      | ok => exact .inl fun k hk => (Nat.lt_succ_iff_lt_or_eq.mp hk).elim (h k) (· ▸ ha)
      | fail => exact .inr ⟨n, Nat.lt_succ_self n, h, ha⟩
    · exact .inr ⟨k, Nat.lt_succ_of_lt hk, hf⟩

/-- The two cases exclude each other. -/
theorem not_busOk_of_failsAt {n k : Nat} {s : State} (hk : k < n) (hf : BusFailsAt k s) : ¬ BusOk n s := by
  intro h
  have := h k hk
  rw [hf.2] at this
  cases this

@[simp] theorem txCount_append (a b : List Event) : txCount (a ++ b) = txCount a + txCount b := by
  induction a with
  | nil => simp [txCount]
  | cons e a ih => cases e <;> (simp only [List.cons_append, txCount, ih]; try omega)

/-- The answers that come after some events. -/
theorem answerAt_emitted (k : Nat) (e : List Event) (p : Byte) (s : State) :
    answerAt k (emitted e p s) = answerAt (txCount e + k) s := by
  simp [answerAt, List.getD_eq_getElem?_getD, Nat.add_assoc]

@[simp] theorem answerAt_afterOk (k : Nat) (e : List Event) (s : State) :
    answerAt k (afterOk e s) = answerAt (txCount e + k) s := answerAt_emitted ..

theorem failedAt_append_left (k : Nat) (a b : List Event) (h : k < txCount a) :
    failedAt k (a ++ b) = failedAt k a := by
  induction a generalizing k with
  | nil => simp [txCount] at h
  | cons e a ih =>
    cases e with
    | wait t => simpa [failedAt] using ih k (by simpa [txCount] using h)
    | tx v x =>
      cases k with
      | zero => simp [failedAt]
      | succ k => simpa [failedAt] using ih k (by simpa [txCount] using h)

theorem failedAt_append_right (k : Nat) (a b : List Event) :
    failedAt (txCount a + k) (a ++ b) = a ++ failedAt k b := by
  induction a with
  | nil => simp [txCount]
  | cons e a ih =>
    cases e with
    | wait t => simp [txCount, failedAt, ih]
    | tx v x =>
      rw [show txCount (.tx v x :: a) + k = (txCount a + k) + 1 by simp [txCount]; omega]
      simp [failedAt, ih]

/-- The events that a failure leaves hold one transaction more than those answered `ok`. -/
theorem txCount_failedAt (k : Nat) (e : List Event) (h : k < txCount e) : txCount (failedAt k e) = k + 1 := by
  induction e generalizing k with
  | nil => simp [txCount] at h
  | cons x e ih =>
    cases x with
    | wait t => simpa [failedAt, txCount] using ih k (by simpa [txCount] using h)
    | tx v a =>
      cases k with
      | zero => simp [failedAt, txCount]
      | succ k => simpa [failedAt, txCount] using ih k (by simpa [txCount] using h)

/-- No event of the list is a failed transaction. -/
def AllOk (e : List Event) : Prop := ∀ x ∈ e, isFail x = false

theorem allOk_append {a b : List Event} : AllOk (a ++ b) ↔ AllOk a ∧ AllOk b := by
  simp [AllOk, or_imp, forall_and]

/-- Only the last event that a failure leaves is a failed transaction. -/
theorem failedAt_eq_allOk_append (k : Nat) (e : List Event) (he : AllOk e) (h : k < txCount e) :
    ∃ a v, failedAt k e = a ++ [.tx v .fail] ∧ AllOk a := by
  induction e generalizing k with
  | nil => simp [txCount] at h
  | cons x e ih =>
    have hx : isFail x = false := he x (by simp)
    have he' : AllOk e := fun y hy => he y (by simp [hy])
    cases x with
    | wait t =>
      obtain ⟨a, v, h1, h2⟩ := ih k he' (by simpa [txCount] using h)
      exact ⟨.wait t :: a, v, by simp [failedAt, h1], by simpa [AllOk, isFail] using h2⟩
    | tx v c =>
      cases k with
      | zero => exact ⟨[], v, by simp [failedAt], by simp [AllOk]⟩
      | succ k =>
        obtain ⟨a, w, h1, h2⟩ := ih k he' (by simpa [txCount] using h)
        refine ⟨.tx v c :: a, w, by simp [failedAt, h1], ?_⟩
        simpa [AllOk, hx] using h2

/-- Events that were all answered `ok` leave the port with one value. -/
theorem portsAfter_allOk (e : List Event) (p : Byte) (he : AllOk e) :
    portsAfter e p = [(portsAfter e p).headD p] := by
  induction e generalizing p with
  | nil => simp [portsAfter]
  | cons x e ih =>
    have he' : AllOk e := fun y hy => he y (by simp [hy])
    cases x with
    | wait t => simpa [portsAfter] using ih p he'
    | tx v a =>
      cases a with
      | ok =>
        have := ih (v) he'
        simp only [portsAfter]
        rw [this]; simp
      | fail => simpa [isFail] using he (.tx v .fail) (by simp)

theorem portsAfter_append (a b : List Event) (p : Byte) (ha : AllOk a) :
    portsAfter (a ++ b) p = portsAfter b ((portsAfter a p).headD p) := by
  induction a generalizing p with
  | nil => simp [portsAfter]
  | cons x a ih =>
    have ha' : AllOk a := fun y hy => ha y (by simp [hy])
    cases x with
    | wait t => simpa [portsAfter] using ih p ha'
    | tx v c =>
      cases c with
      | ok =>
        have h := ih (v) ha'
        have h1 := portsAfter_allOk a (v) ha'
        simp only [List.cons_append, portsAfter]
        rw [h]
        rw [h1]; simp
      | fail => simpa [isFail] using ha (.tx v .fail) (by simp)

@[simp] theorem advanceBy_advanceBy (m n : Nat) (p : SeqPos) : advanceBy n (advanceBy m p) = advanceBy (m + n) p := by
  cases p <;> simp [advanceBy]
  · by_cases hm : m = 0 <;> by_cases hn : n = 0 <;> simp [hm, hn]
  · omega

@[simp] theorem advance_eq_advanceBy (p : SeqPos) : p.advance = advanceBy 1 p := by
  cases p <;> simp [SeqPos.advance, advanceBy]

/-- Events after events. -/
theorem emitted_emitted (a b : List Event) (p q : Byte) (s : State) :
    emitted b q (emitted a p s) = emitted (a ++ b) q s := by
  simp [emitted, Nat.add_assoc]

theorem afterOk_afterOk (a b : List Event) (s : State) (ha : AllOk a) :
    afterOk b (afterOk a s) = afterOk (a ++ b) s := by
  simp only [afterOk, emitted_emitted, emitted_port, portsAfter_append a b s.port ha]
  congr 1
  cases h : portsAfter b ((portsAfter a s.port).headD s.port) with
  | nil =>
    exfalso
    clear ha
    generalize (portsAfter a s.port).headD s.port = p at h
    induction b generalizing p with
    | nil => simp [portsAfter] at h
    | cons x b ih =>
      cases x with
      | wait t => exact ih p h
      | tx v c =>
        cases c with
        | ok => exact ih _ h
        | fail => simp [portsAfter] at h; exact ih _ h.2
  | cons x l => simp

end Sys2Proof.Safety
end

