-- ==== Sys2Proof/Laws/Perform.lean ====
section
/-! SUPPORT. What performing a micro-sequence does, once for all answers of the bus: the events of a run are those of
the list up to the first failed transaction. Bodies are composed from `Performs`. -/

namespace Sys2Proof.Machine

open Sys2Proof.Safety

/-- The events of a micro-sequence whose transactions are all answered `ok`. -/
def okEvents : List MicroOp → List Event
  | [] => []
  | .wait t :: rest => .wait t :: okEvents rest
  | .tx v :: rest => .tx v .ok :: okEvents rest

theorem okEvents_append (a b : List MicroOp) : okEvents (a ++ b) = okEvents a ++ okEvents b := by
  induction a with
  | nil => rfl
  | cons x a ih => cases x <;> simp [okEvents, ih]

theorem okEvents_allOk (l : List MicroOp) : AllOk (okEvents l) := by
  induction l with
  | nil => simp [AllOk, okEvents]
  | cons x l ih => cases x <;> simpa [AllOk, okEvents, isFail] using ih

/-- A flow from the state `s` that makes the events `e` and changes nothing else: it goes on after them if they are all
answered `ok`, and raises `BusFailure` at the first that fails. -/
structure Performs (f : Flow) (s : State) (e : List Event) : Prop where
  allOk : AllOk e
  goes : BusOk (txCount e) s → f = .go (afterOk e s)
  raises : ∀ k < txCount e, BusFailsAt k s →
    ∃ p ∈ portsAfter (failedAt k e) s.port, f = .raise .busFailure (emitted (failedAt k e) p s)

theorem emitted_nil (s : State) : emitted [] s.port s = s := by
  cases s with
  | mk => simp [emitted, txCount, advanceBy]; split <;> simp_all

theorem delay_eq_emitted (t : Nat) (s : State) : delay t s = emitted [.wait t] s.port s := by
  simp [delay, emitted, txCount]

theorem transact_ok (v : Byte) (s : State) (h : nextAnswer s = .ok) :
    transact v s = afterOk [.tx v .ok] s := by
  simp [transact, afterOk, emitted, txCount, h, portAfter, portsAfter]

theorem transact_fail (v : Byte) (s : State) (h : nextAnswer s = .fail) :
    ∃ p ∈ portsAfter [.tx v .fail] s.port, transact v s = emitted [.tx v .fail] p s := by
  refine ⟨(transact v s).port, ?_, ?_⟩
  · simp only [transact_port, h, portAfter, portsAfter, Config.prefixLatched]
    split <;> simp
  · simp [transact, emitted, txCount, h]

/-- Performing a micro-sequence makes its events. -/
theorem perform_performs (l : List MicroOp) (s : State) : Performs (perform l s) s (okEvents l) := by
  induction l generalizing s with
  | nil =>
    exact ⟨by simp [AllOk, okEvents], fun _ => by simp [perform, okEvents, afterOk, portsAfter, emitted_nil],
      fun k hk => by simp [okEvents, txCount] at hk⟩
  | cons x l ih =>
    refine ⟨okEvents_allOk _, ?_, ?_⟩
    · intro hb
      cases x with
      | wait t =>
        have hs : delay t s = afterOk [.wait t] s := by simp [delay_eq_emitted, afterOk, portsAfter]
        have := (ih (delay t s)).goes fun k hk => by
          simpa [hs, txCount] using hb k (by simpa [okEvents, txCount] using hk)
        simp only [perform, this, okEvents]
        rw [hs, afterOk_afterOk _ _ _ (by simp [AllOk, isFail])]
        rfl
      | tx v =>
        have h0 : nextAnswer s = .ok := by
          rw [nextAnswer_eq_answerAt]; exact hb 0 (by simp [okEvents, txCount])
        have hs := transact_ok v s h0
        have := (ih (transact v s)).goes fun k hk => by
          have := hb (1 + k) (by simp [okEvents, txCount]; omega)
          simpa [hs, txCount] using this
        simp only [perform, h0, this, okEvents]
        rw [hs, afterOk_afterOk _ _ _ (by simp [AllOk, isFail])]
        rfl
    · intro k hk hf
      cases x with
      | wait t =>
        have hs : delay t s = emitted [.wait t] s.port s := delay_eq_emitted t s
        have hk' : k < txCount (okEvents l) := by simpa [okEvents, txCount] using hk
        have ha : ∀ j, answerAt j (delay t s) = answerAt j s := fun j => by
          rw [hs, answerAt_emitted]; simp [txCount]
        obtain ⟨p, hp, h⟩ := (ih (delay t s)).raises k hk' ⟨fun j hj => (ha j).trans (hf.1 j hj), (ha k).trans hf.2⟩
        refine ⟨p, by simpa [okEvents, failedAt, portsAfter] using hp, ?_⟩
        simp only [perform, h, okEvents, failedAt]
        rw [hs, emitted_emitted]; rfl
      | tx v =>
        cases k with
        | zero =>
          have h0 : nextAnswer s = .fail := by rw [nextAnswer_eq_answerAt]; exact hf.2
          obtain ⟨p, hp, h⟩ := transact_fail v s h0
          exact ⟨p, by simpa [okEvents, failedAt] using hp, by simp [perform, h0, okEvents, failedAt, h]⟩
        | succ k =>
          have h0 : nextAnswer s = .ok := by rw [nextAnswer_eq_answerAt]; exact hf.1 0 (by omega)
          have hs := transact_ok v s h0
          have hk' : k < txCount (okEvents l) := by simpa [okEvents, txCount] using hk
          have ha : ∀ j, answerAt j (transact v s) = answerAt (j + 1) s := fun j => by
            rw [hs, answerAt_afterOk, Nat.add_comm j]; rfl
          obtain ⟨p, hp, h⟩ := (ih (transact v s)).raises k hk'
            ⟨fun j hj => (ha j).trans (hf.1 _ (by omega)), (ha k).trans hf.2⟩
          refine ⟨p, by simpa [okEvents, failedAt, portsAfter, hs, afterOk] using hp, ?_⟩
          simp only [perform, h0, h, okEvents, failedAt]
          rw [hs, afterOk, emitted_emitted]; rfl

/-- One part after another. -/
theorem Performs.andThen {f : Flow} {g : State → Flow} {s : State} {a b : List Event} (hf : Performs f s a)
    (hg : Performs (g (afterOk a s)) (afterOk a s) b) : Performs (f.andThen g) s (a ++ b) := by
  refine ⟨allOk_append.mpr ⟨hf.allOk, hg.allOk⟩, ?_, ?_⟩
  · intro h
    have h1 := hf.goes fun k hk => h k (by simp; omega)
    have h2 := hg.goes fun k hk => by
      rw [answerAt_afterOk]; exact h _ (by simp; omega)
    rw [h1]
    simp only [Flow.andThen, h2, afterOk_afterOk a b s hf.allOk]
  · intro k hk hfail
    by_cases hka : k < txCount a
    · obtain ⟨p, hp, h⟩ := hf.raises k hka hfail
      rw [failedAt_append_left k a b hka]
      exact ⟨p, hp, by rw [h]; rfl⟩
    · obtain ⟨j, rfl⟩ := Nat.exists_eq_add_of_le (Nat.le_of_not_lt hka)
      have h1 := hf.goes fun i hi => hfail.1 i (by omega)
      obtain ⟨p, hp, h⟩ := hg.raises j (by simp at hk; omega)
        ⟨fun i hi => by rw [answerAt_afterOk]; exact hfail.1 _ (by omega), by rw [answerAt_afterOk]; exact hfail.2⟩
      rw [failedAt_append_right, portsAfter_append a _ _ hf.allOk]
      refine ⟨p, by simpa [afterOk] using hp, ?_⟩
      rw [h1]
      show g (afterOk a s) = _
      rw [h, afterOk, emitted_emitted]

/-- Whatever the bus answers, a part that performs events ends in one of two ways. -/
theorem Performs.cases {f : Flow} {s : State} {e : List Event} (h : Performs f s e) :
    f = .go (afterOk e s) ∨
    ∃ k < txCount e, BusFailsAt k s ∧
      ∃ p ∈ portsAfter (failedAt k e) s.port, f = .raise .busFailure (emitted (failedAt k e) p s) := by
  rcases busOk_or_failsAt (txCount e) s with hb | ⟨k, hk, hf⟩
  · exact .inl (h.goes hb)
  · exact .inr ⟨k, hk, hf, h.raises k hk hf⟩

end Sys2Proof.Machine
end

