-- ==== Sys2Proof/Laws/Transmit.lean ====
section
/-! SUPPORT. What the transmit primitives and the formatter do: each performs the events that its rule writes out
(40_transmit.md, 41_commands.md); and what the frames that end a request make of a flow. -/

namespace Sys2Proof.Machine

open Sys2Proof.Safety

theorem blMask_eq_lightImage (b : Bool) : blMask b = lightImage b := rfl

/-- The frame with EN set is the frame with EN clear, with bit 2 set (R103). -/
theorem frame_enable (light : Bool) (d : Byte) (rs : Bool) :
    frame light d rs true = frame light d rs false ||| 0x04 := by
  cases light <;> cases rs <;> simp [frame, pEN, pRS, pBL, dataLines, blMask] <;> ac_rfl

/-- A frame with EN clear (R102, R106). -/
theorem frame_low (light : Bool) (d : Byte) (rs : Bool) :
    frame light d rs false = (d &&& 0xF0) ||| modeBit rs ||| lightImage light := by
  cases light <;> cases rs <;> simp [frame, pRS, pBL, dataLines, modeBit, blMask, lightImage]

theorem frame_hiNibble (light : Bool) (b : Byte) (rs : Bool) :
    frame light (hiNibble b) rs false = (b &&& 0xF0) ||| modeBit rs ||| lightImage light := by
  simp [frame_low, hiNibble, BitVec.and_assoc]

theorem frame_loNibble (light : Bool) (b : Byte) (rs : Bool) :
    frame light (loNibble b) rs false = ((b <<< 4) &&& 0xF0) ||| modeBit rs ||| lightImage light := by
  simp [frame_low, loNibble, BitVec.and_assoc]

theorem okEvents_nibbleSeq (light : Bool) (d : Byte) (rs : Bool) :
    okEvents (nibbleSeq light d rs) = nibbleEvents (frame light d rs false) := by
  simp [nibbleSeq, okEvents, nibbleEvents, frame_enable, tPulse, tCycle]

theorem okEvents_sendSeq (light : Bool) (b : Byte) (rs : Bool) :
    okEvents (sendSeq light b rs) = sendEvents light b rs := by
  simp only [sendSeq, okEvents_append, okEvents_nibbleSeq, frame_hiNibble, frame_loNibble, sendEvents]

@[simp] theorem txCount_nibbleEvents (f : Byte) : txCount (nibbleEvents f) = 2 := rfl
@[simp] theorem txCount_sendEvents (light : Bool) (b : Byte) (rs : Bool) : txCount (sendEvents light b rs) = 4 := rfl
@[simp] theorem length_nibbleEvents (f : Byte) : (nibbleEvents f).length = 4 := rfl
@[simp] theorem length_sendEvents (light : Bool) (b : Byte) (rs : Bool) : (sendEvents light b rs).length = 8 := rfl

/-- A `send` performs the events of R106. -/
theorem send_performs (b : Byte) (rs : Bool) (s : State) :
    Performs (send b rs s) s (sendEvents s.backlight b rs) := by
  rw [← okEvents_sendSeq]; exact perform_performs _ _

/-- A nibble frame (R103). -/
theorem writeNibble_performs (d : Byte) (rs : Bool) (s : State) :
    Performs (writeNibble d rs s) s (nibbleEvents (frame s.backlight d rs false)) := by
  rw [← okEvents_nibbleSeq]; exact perform_performs _ _

theorem rawNibble3_performs (s : State) :
    Performs (rawNibble 0x3 s) s (nibbleEvents (0x30 ||| lightImage s.backlight)) := by
  have h := writeNibble_performs (nibbleData 0x3) false s
  rwa [show frame s.backlight (nibbleData 0x3) false false = 0x30 ||| lightImage s.backlight by
    cases s.backlight <;> rfl] at h

theorem rawNibble2_performs (s : State) :
    Performs (rawNibble 0x2 s) s (nibbleEvents (0x20 ||| lightImage s.backlight)) := by
  have h := writeNibble_performs (nibbleData 0x2) false s
  rwa [show frame s.backlight (nibbleData 0x2) false false = 0x20 ||| lightImage s.backlight by
    cases s.backlight <;> rfl] at h

/-- One transaction (R100). -/
theorem sendByte_performs (v : Byte) (s : State) : Performs (sendByte v s) s [.tx v .ok] := perform_performs [.tx v] s

/-- A raw latch (R108). -/
theorem rawLatch_performs (s : State) : Performs (rawLatch s) s [.tx (lightImage s.backlight) .ok] :=
  sendByte_performs _ s

theorem waitFor_performs (t : Nat) (s : State) : Performs (waitFor t s) s [.wait t] := perform_performs [.wait t] s

theorem fmtClear_performs (s : State) :
    Performs (fmtClear s) s (sendEvents s.backlight 0x01 false ++ [.wait 2000]) :=
  (send_performs opClear false s).andThen (waitFor_performs _ _)

theorem fmtHome_performs (s : State) :
    Performs (fmtHome s) s (sendEvents s.backlight 0x02 false ++ [.wait 2000]) :=
  (send_performs opHome false s).andThen (waitFor_performs _ _)

theorem fmtEntry_performs (s : State) :
    Performs (fmtEntry s) s (sendEvents s.backlight (0x04 ||| s.displayMode) false) := send_performs _ _ s

theorem fmtDispCtl_performs (s : State) :
    Performs (fmtDispCtl s) s (sendEvents s.backlight (0x08 ||| s.displayControl) false) := send_performs _ _ s

theorem shiftByte_move (right : Bool) : shiftByte true right = if right then 0x1C else 0x18 := by cases right <;> rfl

theorem funcSetByte_lines (n : Bool) : funcSetByte false n false = if n then 0x28 else 0x20 := by cases n <;> rfl

theorem fmtShift_performs (right : Bool) (s : State) :
    Performs (fmtShift right s) s (sendEvents s.backlight (if right then 0x1C else 0x18) false) := by
  unfold fmtShift
  rw [shiftByte_move]
  exact send_performs _ _ s

theorem fmtFuncSet_performs (s : State) :
    Performs (fmtFuncSet s) s (sendEvents s.backlight (if 1 < s.rows.toNat then 0x28 else 0x20) false) := by
  unfold fmtFuncSet
  rw [funcSetByte_lines]
  simp only [decide_eq_true_eq]
  exact send_performs _ _ s

theorem fmtSetCgram_performs (slot : Byte) (s : State) :
    Performs (fmtSetCgram slot s) s (sendEvents s.backlight (0x40 ||| (slot <<< 3)) false) := send_performs _ _ s

theorem fmtSetDdram_performs (addr : Byte) (s : State) :
    Performs (fmtSetDdram addr s) s (sendEvents s.backlight (0x80 ||| addr) false) := send_performs _ _ s

theorem fmtData_performs (b : Byte) (s : State) :
    Performs (fmtData b s) s (sendEvents s.backlight b true) := send_performs _ _ s

/-! ### The frames -/

theorem returnResult_ok (s : State) : returnResult .ok s = returned .ok s := rfl

theorem returnResult_busFailure (s : State) : returnResult (.err .busFailure) s = busFailed s := rfl

/-- An error other than a bus failure leaves `coherent` (R141). -/
theorem returnResult_err (e : ErrorCode) (s : State) (h : e ≠ .busFailure) :
    returnResult (.err e) s = returned (.err e) s := by
  simp [returnResult, returned, h]

theorem runRequest_ready (body : State → Flow) (s : State) (h : s.lifecycle = .ready) :
    runRequest body s = .next (endRequest (body (loadSequence s))) := by simp [runRequest, h]

theorem runRequest_uninitialized (body : State → Flow) (s : State) (h : s.lifecycle = .uninitialized) :
    runRequest body s = .next (enterFault .notReady s) := by simp [runRequest, h]

theorem runRequest_faulted (body : State → Flow) (s : State) (r : FaultReason) (h : s.lifecycle = .faulted r) :
    runRequest body s = .fault (.halted r) := by simp [runRequest, h]

/-- Whatever a request other than init answers with a next state, it was not faulted, and either it was not ready and
faults `NotReady`, or its body ran. -/
theorem runRequest_next {body : State → Flow} {s t : State} (h : runRequest body s = .next t) :
    (s.lifecycle = .uninitialized ∧ t = enterFault .notReady s) ∨
    (s.lifecycle = .ready ∧ t = endRequest (body (loadSequence s))) := by
  unfold runRequest at h
  split at h
  · cases h
  · next hl => exact .inl ⟨hl, by cases h; rfl⟩
  · next hl => exact .inr ⟨hl, by cases h; rfl⟩

theorem runInit_alive (body : State → Flow) (s : State) (h : Alive s) :
    runInit body s = .next (endRequest (body (loadSequence s))) := by
  unfold runInit
  split
  · next r hl => exact absurd hl (h r)
  · rfl

theorem runInit_next {body : State → Flow} {s t : State} (h : runInit body s = .next t) :
    Alive s ∧ t = endRequest (body (loadSequence s)) := by
  unfold runInit at h
  split at h
  · cases h
  · next hl => exact ⟨fun r hr => hl r hr, by cases h; rfl⟩

theorem runIllegal_alive (s : State) (h : Alive s) : runIllegal s = .next (enterFault .illegalRequest s) := by
  unfold runIllegal
  split
  · next r hl => exact absurd hl (h r)
  · rfl

theorem runIllegal_next {s t : State} (h : runIllegal s = .next t) :
    Alive s ∧ t = enterFault .illegalRequest s := by
  unfold runIllegal at h
  split at h
  · cases h
  · next hl => exact ⟨fun r hr => hl r hr, by cases h; rfl⟩

theorem runPart_next {body : State → Flow} {s t : State} (h : runPart body s = .next t) :
    Alive s ∧ ((∃ s', body s = .go s' ∧ t = s') ∨ (∃ e s', body s = .raise e s' ∧ t = returnResult (.err e) s') ∨
      ∃ r s', body s = .abort r s' ∧ t = enterFault r s') := by
  unfold runPart at h
  split at h
  · cases h
  · next hl =>
    refine ⟨fun r hr => hl r hr, ?_⟩
    split at h
    · next hb => exact .inl ⟨_, hb, by cases h; rfl⟩
    · next hb => exact .inr (.inl ⟨_, _, hb, by cases h; rfl⟩)
    · next hb => exact .inr (.inr ⟨_, _, hb, by cases h; rfl⟩)

/-- A part that performs events, run on its own (log entry 8). -/
theorem runPart_sendsPart {body : State → Flow} {s : State} {e : List Event} (hs : Alive s)
    (h : Performs (body s) s e) : SendsPart e s (runPart body s) := by
  have hrun : ∀ f, body s = f → runPart body s = match f with
      | .go s' => .next s'
      | .raise c s' => .next (returnResult (.err c) s')
      | .abort r s' => .next (enterFault r s') := by
    intro f hf
    unfold runPart
    split
    · next r hl => exact absurd hl (hs r)
    · subst hf; cases body s <;> rfl
  refine ⟨fun hb => hrun _ (h.goes hb), fun k hk hf => ?_⟩
  obtain ⟨p, hp, hr⟩ := h.raises k hk hf
  exact ⟨p, hp, hrun _ hr⟩

theorem answerAt_loadSequence (k : Nat) (s : State) : answerAt k (loadSequence s) = answerAt k s := rfl

end Sys2Proof.Machine
end

