-- ==== Sys2Proof/Certificates/Slice0/Obligations.lean ====
section
/-! DEFINITION. The statements for the provers. Each docstring names the rule of spec/ that it formalises. -/

open Sys2Proof Sys2Proof.Machine Sys2Proof.Safety

/-! ### Reset, fetching and decoding -/

/-- 42_operations.md R140, 10_state.md R36, 70_reset_and_hazards.md R230: construction accepts every geometry, makes no
event, and leaves the block uninitialized, idle, not coherent, with the backlight at `BACKLIGHT_RESET` = 1, whatever the
expander's port held (its value is unknown, R38; log entry 22). The fields the spec gives no value (log entry 2) are not
named here. -/
def Obligations.ConstructionStartsUninitialized : Prop :=
  (∀ cols rows port : Byte,
    let s := State.construct cols rows port
    s.lifecycle = .uninitialized ∧ s.cols = cols ∧ s.rows = rows ∧ s.backlight = true ∧ s.pc = .idle ∧
      s.coherent = false ∧ s.port = port ∧ s.trace = [] ∧ s.results = []) ∧
  State.reset = State.construct Config.cols Config.rows Config.portAtReset

/-- 30_encoding.md R71, R75, R76, R80 and R100, on words written out from their tables. -/
def Obligations.TabulatedWordsDecode : Prop :=
  decodeRequest [0x01] = .init ∧ decodeRequest [0x07, 0x03, 0x01] = .setCursor 3 1 ∧
  decodeRequest [0x0B, 0x01] = .autoscroll true ∧ decodeRequest [0x09, 0x48, 0x69] = .printText [0x48, 0x69] ∧
  decodeRequest [0x13] = .illegalRequest [0x13] ∧
  decode .command [0x06] = .ok (.lcdEntry true false) ∧ decode .command [0x0C] = .ok (.lcdDispCtl true false false) ∧
  decode .command [0x48] = .ok (.lcdSetCgram 1) ∧ decode .command [0xD4] = .ok (.lcdSetDdram 0x54) ∧
  decode .data [0x80] = .ok (.lcdData 0x80) ∧ decode .rawNibble [0x03] = .ok .rawNibble3 ∧
  decode .enHigh [0x4D] = .ok (.frameEnHigh 4 true true) ∧ decode .rawLatch [0x08] = .ok (.frameRawLatch true) ∧
  decode .transaction [0x00, 0x4D] = .ok (.tx 0x4D)

/-- 10_state.md R21, R40, 60_exceptions.md R219: the block takes the next record at the host port and performs that
request; with no record it stays as it is; the record is gone afterwards. -/
def Obligations.StepPerformsNextRecord : Prop :=
  ∀ s : State, Alive s →
    (∀ bytes rest, s.requests = bytes :: rest → step s = exec (decodeRequest bytes) { s with requests := rest }) ∧
    (s.requests = [] → step s = .next s)

/-- Decoding what a well-formed instruction encodes to, in its layer, gives the instruction back, with every operand. How
a boolean travels in a record is log entry 6. -/
def Obligations.DecodeOfEncode : Prop :=
  ∀ i : Instr, i.wf = true → decode (encode i).1 (encode i).2 = .ok i

/-- Whatever bytes decode to in a layer encodes to those bytes in that layer, and is well formed: no two encodings of one
instruction, and no bits dropped. Which argument bytes are booleans, and which bytes of a lower layer are rejected, are
log entries 6 and 18. -/
def Obligations.EncodeOfDecode : Prop :=
  ∀ (layer : Layer) (bytes : List Byte) (i : Instr), decode layer bytes = .ok i → encode i = (layer, bytes) ∧ i.wf = true

/-- 30_encoding.md R84: a record with an unassigned code, or with arguments outside their domains, is no request, and
the block faults `IllegalRequest` with no event. A glyph pattern that is not 8 bytes is such an argument. -/
def Obligations.IllegalRecordsFault : Prop :=
  (∀ (code : Byte) (args : List Byte), code = 0x00 ∨ 0x13 ≤ code.toNat → legalRequest (code :: args) = false) ∧
  (∀ bytes, legalRequest bytes = false → decodeRequest bytes = .illegalRequest bytes) ∧
  (∀ (bytes : List Byte) (s : State), Alive s →
    exec (.illegalRequest bytes) s = .next (faultedWith .illegalRequest s)) ∧
  ∀ (slot : Byte) (pattern : List Byte) (s : State), Alive s → pattern.length ≠ 8 →
    exec (.defineCustomGlyph slot pattern) s = .next (faultedWith .illegalRequest s)

/-- 60_exceptions.md R204, R212, 42_operations.md R141: once faulted, the block takes no further step, whatever stands at
the host port, and no instruction is performed. -/
def Obligations.FaultedBlockTakesNoStep : Prop :=
  ∀ (s : State) (r : FaultReason), s.lifecycle = .faulted r →
    step s = .fault (.halted r) ∧ ∀ i : Instr, exec i s = .fault (.halted r)

/-- 42_operations.md R141, 60_exceptions.md R204 and R205: every request but init faults `NotReady` while the block is
`Uninitialized`, before any other check, with no event and no result; a record that is no request comes first. -/
def Obligations.RequestsBeforeInitFaultNotReady : Prop :=
  ∀ (i : Instr) (s : State), isRequest i = true → i ≠ .init → i.wf = true → (∀ bytes, i ≠ .illegalRequest bytes) →
    s.lifecycle = .uninitialized → exec i s = .next (faultedWith .notReady s)

/-! ### The parts that requests are made of -/

/-- 40_transmit.md R100: one transaction is the bus write of `[0x00, v]` to 0x27; after `ok` the port holds `v`; a failed
one is not retried and ends the request with `BusFailure`. -/
def Obligations.TransactionWritesTheExpander : Prop :=
  ∀ (v : Byte) (s : State), Alive s →
    busWriteOf v = ⟨0x27, [0x00, v]⟩ ∧ SendsPart [.tx v .ok] s (exec (.tx v) s)

/-- 30_encoding.md R74 and R75: each kind of frame byte is one transaction of the byte `NNNN B E 0 R`. That its bit B is
the operand, and not the backlight flag of the state, is the model's choice (log entry 20). -/
def Obligations.FrameRowsSendTheirByte : Prop :=
  ∀ (n : Nibble) (light rs : Bool) (s : State), Alive s →
    SendsPart [.tx ((n ++ (0 : Nibble)) ||| lightImage light ||| 0x04 ||| modeBit rs) .ok] s
      (exec (.frameEnHigh n light rs) s) ∧
    SendsPart [.tx ((n ++ (0 : Nibble)) ||| lightImage light ||| modeBit rs) .ok] s (exec (.frameEnLow n light rs) s) ∧
    SendsPart [.tx (lightImage light) .ok] s (exec (.frameRawLatch light) s)

/-- 40_transmit.md R107, 30_encoding.md R80: a raw nibble is one enable pulse of `n << 4` with register-select 0. -/
def Obligations.RawNibbleRowsPulseOnce : Prop :=
  ∀ s : State, Alive s →
    SendsPart (nibbleEvents (0x30 ||| lightImage s.backlight)) s (exec .rawNibble3 s) ∧
    SendsPart (nibbleEvents (0x20 ||| lightImage s.backlight)) s (exec .rawNibble2 s)

/-- 40_transmit.md R106, 30_encoding.md R78, 20_memory.md R52: for every value and mode bit, an all-`ok` send emits
exactly two nibble frames, the high nibble's first, each as the pair `frame | P_EN`, `frame` with its waits: 4
transactions and 4 waits. -/
def Obligations.SendEmitsTwoNibbleFrames : Prop :=
  ∀ (value : Byte) (rs : Bool) (s : State), BusOk 4 s →
    let hi := (value &&& 0xF0) ||| modeBit rs ||| lightImage s.backlight
    let lo := ((value <<< 4) &&& 0xF0) ||| modeBit rs ||| lightImage s.backlight
    ∃ t, send value rs s = .go t ∧
      t.trace = s.trace ++ [.tx (hi ||| 0x04) .ok, .wait 1, .tx hi .ok, .wait 50,
        .tx (lo ||| 0x04) .ok, .wait 1, .tx lo .ok, .wait 50]

/-- 40_transmit.md R104: the two ways a nibble frame can fail. After a failed enable-high transaction no wait is begun and
no enable-low frame is sent, and the enable line may be left high; after a failed enable-low transaction the cycle wait is
not begun. What the port holds after the failure is one of two values (20_memory.md R66; log entry 4). -/
def Obligations.NibbleFrameFailures : Prop :=
  ∀ (d : Byte) (rs : Bool) (s : State),
    let f := (d &&& 0xF0) ||| modeBit rs ||| lightImage s.backlight
    (BusFailsAt 0 s → ∃ t, writeNibble d rs s = .raise .busFailure t ∧
      t.trace = s.trace ++ [.tx (f ||| 0x04) .fail] ∧ (t.port = s.port ∨ t.port = (f ||| 0x04))) ∧
    (BusFailsAt 1 s → ∃ t, writeNibble d rs s = .raise .busFailure t ∧
      t.trace = s.trace ++ [.tx (f ||| 0x04) .ok, .wait 1, .tx f .fail] ∧
      (t.port = (f ||| 0x04) ∨ t.port = f))

/-- 41_commands.md R121 to R129, 30_encoding.md R76: each HD44780 row sends its byte with its register-select bit; CLEAR
and HOME end with the settle wait. The flag values that the block never emits (R83, R124, R125: cursor or blink on,
cursor-only shift, 8-bit interface, large font) are instructions too by log entry 17. -/
def Obligations.LcdRowsSendTheirByte : Prop :=
  ∀ s : State, Alive s →
    SendsPart (sendEvents s.backlight 0x01 false ++ [.wait 2000]) s (exec .lcdClear s) ∧
    SendsPart (sendEvents s.backlight 0x02 false ++ [.wait 2000]) s (exec .lcdHome s) ∧
    (∀ dir auto : Bool,
      SendsPart (sendEvents s.backlight (BitVec.ofNat 8 (4 + 2 * dir.toNat + auto.toNat)) false) s
        (exec (.lcdEntry dir auto) s)) ∧
    (∀ disp cursor blink : Bool,
      SendsPart (sendEvents s.backlight (BitVec.ofNat 8 (8 + 4 * disp.toNat + 2 * cursor.toNat + blink.toNat)) false) s
        (exec (.lcdDispCtl disp cursor blink) s)) ∧
    (∀ move right : Bool,
      SendsPart (sendEvents s.backlight (BitVec.ofNat 8 (16 + 8 * move.toNat + 4 * right.toNat)) false) s
        (exec (.lcdShift move right) s)) ∧
    (∀ eight twoLine font : Bool,
      SendsPart
        (sendEvents s.backlight (BitVec.ofNat 8 (32 + 16 * eight.toNat + 8 * twoLine.toNat + 4 * font.toNat)) false) s
        (exec (.lcdFuncSet eight twoLine font) s)) ∧
    (∀ slot : BitVec 3,
      SendsPart (sendEvents s.backlight (BitVec.ofNat 8 (64 + 8 * slot.toNat)) false) s (exec (.lcdSetCgram slot) s)) ∧
    (∀ addr : BitVec 7,
      SendsPart (sendEvents s.backlight (BitVec.ofNat 8 (128 + addr.toNat)) false) s (exec (.lcdSetDdram addr) s)) ∧
    ∀ b : Byte, SendsPart (sendEvents s.backlight b true) s (exec (.lcdData b) s)

/-- 41_commands.md R123, R124, R126: with only documented flag bits set, the formatter's operation is the row of the
opcode table whose flags are the state's. -/
def Obligations.FormatterSendsTheRow : Prop :=
  ∀ s : State, Alive s →
    (s.displayMode &&& 0xFC = 0 →
      runPart fmtEntry s = exec (.lcdEntry (s.displayMode.getLsbD 1) (s.displayMode.getLsbD 0)) s) ∧
    (s.displayControl &&& 0xF8 = 0 →
      runPart fmtDispCtl s =
        exec (.lcdDispCtl (s.displayControl.getLsbD 2) (s.displayControl.getLsbD 1) (s.displayControl.getLsbD 0)) s) ∧
    runPart fmtFuncSet s = exec (.lcdFuncSet false (decide (1 < s.rows.toNat)) false) s

/-! ### The requests -/

/-- 42_operations.md R143: init from any state that is not faulted. All `ok`: the boot sequence of 29 transactions and
35 waits, and `Ready` with the fields init sets. A failure at transaction `k`: `Uninitialized`, and each field written before the
failure keeps its new value (10_state.md R37, 90_conflicts.md C9). -/
def Obligations.InitRunsTheBootSequence : Prop :=
  decodeRequest [0x01] = .init ∧
  ∀ s : State, Alive s →
    (txCount (initEvents s.backlight s.rows) = 29 ∧ (initEvents s.backlight s.rows).length = 29 + 35 ∧
      minMicros (initEvents s.backlight s.rows) = 69214) ∧
    (BusOk 29 s → exec .init s = .next (returned .ok { afterOk (initEvents s.backlight s.rows) s with
      lifecycle := .ready, displayControl := 0x04, displayMode := 0x02, currentLine := 0, coherent := true })) ∧
    ∀ k < 29, BusFailsAt k s → FailsAt k (initEvents s.backlight s.rows)
      { s with
        lifecycle := .uninitialized
        displayControl := if 13 ≤ k then 0x04 else s.displayControl
        currentLine := if 21 ≤ k then 0 else s.currentLine
        displayMode := if 21 ≤ k then 0x02 else s.displayMode } (exec .init s)

/-- 42_operations.md R144: `displayOn` sets bit `D`, keeps the other bits, and sends Display control; the bit stays
written if the send fails. -/
def Obligations.DisplayOnSetsTheFlag : Prop :=
  decodeRequest [0x02] = .displayOn ∧
  RequestSends .displayOn (fun s => { s with displayControl := s.displayControl ||| 0x04 }) id
    fun s => sendEvents s.backlight (0x08 ||| (s.displayControl ||| 0x04)) false

/-- 42_operations.md R145: `displayOff` clears bit `D`. -/
def Obligations.DisplayOffClearsTheFlag : Prop :=
  decodeRequest [0x03] = .displayOff ∧
  RequestSends .displayOff (fun s => { s with displayControl := s.displayControl &&& 0xFB }) id
    fun s => sendEvents s.backlight (0x08 ||| (s.displayControl &&& 0xFB)) false

/-- 42_operations.md R146 and R147: a backlight toggle writes the flag and makes one raw latch, with no wait; a failed
transaction is the terminal fault `BacklightBusAbort`, and the flag stays written. -/
def Obligations.BacklightTogglesLatchOnce : Prop :=
  decodeRequest [0x04] = .backlightOn ∧ decodeRequest [0x05] = .backlightOff ∧
  ∀ s : State, s.lifecycle = .ready → ∀ on : Bool,
    let i : Instr := if on then .backlightOn else .backlightOff
    let v : Byte := if on then 0x08 else 0x00
    (BusOk 1 s → exec i s = .next (returned .ok (afterOk [.tx v .ok] { s with backlight := on }))) ∧
    (BusFailsAt 0 s → ∃ p ∈ [s.port, v],
      exec i s = .next (faultedWith .backlightBusAbort (emitted [.tx v .fail] p { s with backlight := on })))

/-- 42_operations.md R148: `clear` sends 0x01, waits, and only then resets `current_line`, for every `rows`. -/
def Obligations.ClearSendsThenResetsTheLine : Prop :=
  decodeRequest [0x06] = .clear ∧
  RequestSends .clear id (fun s => { s with currentLine := 0 })
    fun s => sendEvents s.backlight 0x01 false ++ [.wait 2000]

/-- 42_operations.md R149, 20_memory.md R50: the row check comes first, then the row count; neither makes an event or
writes a field. Otherwise the address `(col + offset) mod 256` is sent, and `current_line` written after the send. -/
def Obligations.SetCursorAddressesTheCell : Prop :=
  ∀ col row : Byte,
    decodeRequest [0x07, col, row] = .setCursor col row ∧
    ∀ s : State, s.lifecycle = .ready →
      (s.rows.toNat ≤ row.toNat → exec (.setCursor col row) s = .next (returned (.err .rowOutOfRange) s)) ∧
      (row.toNat < s.rows.toNat → UnsupportedRows s.rows →
        exec (.setCursor col row) s = .next (returned (.err .unsupportedRowCount) s)) ∧
      ∀ offsets, RowTable s.rows offsets → row.toNat < s.rows.toNat →
        let evs := sendEvents s.backlight (cellCommand offsets col.toNat row.toNat) false
        (BusOk 4 s → exec (.setCursor col row) s = .next (returned .ok { afterOk evs s with currentLine := row })) ∧
        ∀ k < 4, BusFailsAt k s → FailsAt k evs s (exec (.setCursor col row) s)

/-- 42_operations.md R150: `print` sends one data byte and writes no field. -/
def Obligations.PrintSendsOneByte : Prop :=
  ∀ ch : Byte, decodeRequest [0x08, ch] = .print ch ∧
    RequestSends (.print ch) id id fun s => sendEvents s.backlight ch true

/-- 42_operations.md R151: `printText` sends its bytes in order, 4 transactions each, and stops at the first failure, the
bytes before it sent. -/
def Obligations.PrintTextSendsInOrder : Prop :=
  ∀ text : List Byte, decodeRequest (0x09 :: text) = .printText text ∧
    txCount (dataEvents true text) = 4 * text.length ∧
    RequestSends (.printText text) id id fun s => dataEvents s.backlight text

/-- 42_operations.md R152: `printWrapped`, whole. Empty text makes no event, even with `cols = 0`; otherwise `cols = 0`
faults, and an unusable row count is an error at the first character, with no event. Else each character `i` is placed at
column `i mod cols` of row `i div cols`, or of row 0 once that reaches `rows`. -/
def Obligations.PrintWrappedWalksTheCells : Prop :=
  ∀ text : List Byte, decodeRequest (0x0A :: text) = .printWrapped text ∧
    ∀ s : State, s.lifecycle = .ready →
      (text = [] → exec (.printWrapped text) s = .next (returned .ok s)) ∧
      (text ≠ [] → s.cols = 0 → exec (.printWrapped text) s = .next (faultedWith .divideByZero s)) ∧
      (text ≠ [] → s.cols ≠ 0 → s.rows = 0 →
        exec (.printWrapped text) s = .next (returned (.err .rowOutOfRange) s)) ∧
      (text ≠ [] → s.cols ≠ 0 → s.rows ≠ 0 → UnsupportedRows s.rows →
        exec (.printWrapped text) s = .next (returned (.err .unsupportedRowCount) s)) ∧
      ∀ offsets, RowTable s.rows offsets → text ≠ [] → s.cols ≠ 0 →
        let evs := wrappedEvents s.backlight s.cols s.rows offsets 0 text
        (BusOk (8 * text.length) s → exec (.printWrapped text) s = .next (returned .ok
          { afterOk evs s with currentLine := BitVec.ofNat 8 (cellRow s.cols s.rows (text.length - 1)) })) ∧
        ∀ k < 8 * text.length, BusFailsAt k s →
          FailsAt k evs { s with currentLine := wrappedLine s k } (exec (.printWrapped text) s)

/-- 42_operations.md R153: `autoscroll` sets bit `S` to its argument and keeps bit `ID`. That the byte 0x00 is off is the
model's choice (log entry 6); the spec writes only on, as 0B 01. -/
def Obligations.AutoscrollSetsTheFlag : Prop :=
  decodeRequest [0x0B, 0x01] = .autoscroll true ∧ decodeRequest [0x0B, 0x00] = .autoscroll false ∧
  (RequestSends (.autoscroll true) (fun s => { s with displayMode := s.displayMode ||| 0x01 }) id
    fun s => sendEvents s.backlight (0x04 ||| (s.displayMode ||| 0x01)) false) ∧
  RequestSends (.autoscroll false) (fun s => { s with displayMode := s.displayMode &&& 0xFE }) id
    fun s => sendEvents s.backlight (0x04 ||| (s.displayMode &&& 0xFE)) false

/-- 42_operations.md R154 and R155: scrolling sends 0x18 to the left and 0x1C to the right, and writes no field. -/
def Obligations.ScrollsSendTheShift : Prop :=
  decodeRequest [0x0C] = .scrollLeft ∧ decodeRequest [0x0D] = .scrollRight ∧
  (RequestSends .scrollLeft id id fun s => sendEvents s.backlight 0x18 false) ∧
  RequestSends .scrollRight id id fun s => sendEvents s.backlight 0x1C false

/-- 42_operations.md R156 and R157: the text directions set and clear bit `ID` and keep bit `S`. -/
def Obligations.TextDirectionsSetTheFlag : Prop :=
  decodeRequest [0x0E] = .textDirectionLeftToRight ∧ decodeRequest [0x0F] = .textDirectionRightToLeft ∧
  (RequestSends .textDirectionLeftToRight (fun s => { s with displayMode := s.displayMode ||| 0x02 }) id
    fun s => sendEvents s.backlight (0x04 ||| (s.displayMode ||| 0x02)) false) ∧
  RequestSends .textDirectionRightToLeft (fun s => { s with displayMode := s.displayMode &&& 0xFD }) id
    fun s => sendEvents s.backlight (0x04 ||| (s.displayMode &&& 0xFD)) false

/-- 42_operations.md R158: `home` sends 0x02, waits, and leaves `current_line`. -/
def Obligations.HomeLeavesTheLine : Prop :=
  decodeRequest [0x10] = .home ∧
  RequestSends .home id id fun s => sendEvents s.backlight 0x02 false ++ [.wait 2000]

/-- 42_operations.md R159: `nextLine` fails on one row with nothing written; else it writes the next row, wrapping to 0
at `rows`, before it places the cursor at that row's start, whatever becomes of the placing. -/
def Obligations.NextLineAdvancesThenWraps : Prop :=
  decodeRequest [0x11] = .nextLine ∧
  ∀ s : State, s.lifecycle = .ready →
    let moved := { s with currentLine := lineAfter s.currentLine s.rows }
    (s.rows = 1 → exec .nextLine s = .next (returned (.err .nextLineUnsupported) s)) ∧
    (s.rows = 0 → exec .nextLine s = .next (returned (.err .rowOutOfRange) moved)) ∧
    (s.rows ≠ 0 → UnsupportedRows s.rows → exec .nextLine s = .next (returned (.err .unsupportedRowCount) moved)) ∧
    ∀ offsets, RowTable s.rows offsets → s.rows ≠ 1 →
      let evs := sendEvents s.backlight (cellCommand offsets 0 moved.currentLine.toNat) false
      (BusOk 4 s → exec .nextLine s = .next (returned .ok (afterOk evs moved))) ∧
      ∀ k < 4, BusFailsAt k s → FailsAt k evs moved (exec .nextLine s)

/-- 42_operations.md R160: a slot above 7 is an error with no event; else the address-set and the 8 pattern bytes, 9
sends, and no field is written. -/
def Obligations.DefineCustomGlyphWritesNineBytes : Prop :=
  ∀ (slot : Byte) (pattern : List Byte), pattern.length = 8 →
    decodeRequest (0x12 :: slot :: pattern) = .defineCustomGlyph slot pattern ∧
    ∀ s : State, s.lifecycle = .ready →
      (7 < slot.toNat →
        exec (.defineCustomGlyph slot pattern) s = .next (returned (.err .glyphSlotOutOfRange) s)) ∧
      (slot.toNat ≤ 7 →
        let evs := sendEvents s.backlight (BitVec.ofNat 8 (64 + 8 * slot.toNat)) false ++ dataEvents s.backlight pattern
        (BusOk 36 s → exec (.defineCustomGlyph slot pattern) s = .next (returned .ok (afterOk evs s))) ∧
        ∀ k < 36, BusFailsAt k s → FailsAt k evs s (exec (.defineCustomGlyph slot pattern) s))

/-! ### Frames: what an instruction leaves unchanged -/

/-- 10_state.md R27: no instruction changes the geometry. -/
def Obligations.GeometryNeverChanges : Prop :=
  ∀ (i : Instr) (s t : State), exec i s = .next t → t.cols = s.cols ∧ t.rows = s.rows

/-- 10_state.md R25: only the two toggles change the backlight flag. -/
def Obligations.OnlyTogglesChangeTheBacklight : Prop :=
  ∀ (i : Instr) (s t : State), exec i s = .next t → i ≠ .backlightOn → i ≠ .backlightOff → t.backlight = s.backlight

/-- 10_state.md R23, 42_operations.md R161: only init, autoscroll and the text directions change `display_mode`. -/
def Obligations.OnlyModeSettersChangeTheMode : Prop :=
  ∀ (i : Instr) (s t : State), exec i s = .next t → i ≠ .init → (∀ on, i ≠ .autoscroll on) →
    i ≠ .textDirectionLeftToRight → i ≠ .textDirectionRightToLeft → t.displayMode = s.displayMode

/-- 10_state.md R24, 42_operations.md R161: only init, displayOn and displayOff change `display_control`. -/
def Obligations.OnlyDisplaySettersChangeTheControl : Prop :=
  ∀ (i : Instr) (s t : State), exec i s = .next t → i ≠ .init → i ≠ .displayOn → i ≠ .displayOff →
    t.displayControl = s.displayControl

/-- 10_state.md R26, 70_reset_and_hazards.md R240: only init, clear, setCursor, nextLine and printWrapped change
`current_line`. -/
def Obligations.OnlyCursorRequestsChangeTheLine : Prop :=
  ∀ (i : Instr) (s t : State), exec i s = .next t → i ≠ .init → i ≠ .clear → i ≠ .nextLine →
    (∀ col row, i ≠ .setCursor col row) → (∀ text, i ≠ .printWrapped text) → t.currentLine = s.currentLine

/-- 60_exceptions.md R204 and R212: the lifecycle changes in these ways only, and each fault reason has its own
requests. -/
def Obligations.LifecycleMovesOnlyAsListed : Prop :=
  ∀ (i : Instr) (s t : State), exec i s = .next t →
    (i ≠ .init → t.lifecycle = s.lifecycle ∨ ∃ r, t.lifecycle = .faulted r) ∧
    (i = .init → t.lifecycle = .ready ∨ t.lifecycle = .uninitialized) ∧
    (t.lifecycle = .faulted .notReady → s.lifecycle = .uninitialized) ∧
    (t.lifecycle = .faulted .backlightBusAbort → i = .backlightOn ∨ i = .backlightOff) ∧
    (t.lifecycle = .faulted .divideByZero → s.cols = 0 ∧ ∃ text, i = .printWrapped text) ∧
    (t.lifecycle = .faulted .illegalRequest → i.wf = false ∨ ∃ bytes, i = .illegalRequest bytes)

/-- 10_state.md R35: `coherent` is set by a successful init, cleared with a returned bus failure, and changed by nothing
else. -/
def Obligations.CoherentFollowsInitAndFailures : Prop :=
  ∀ (i : Instr) (s t : State), exec i s = .next t →
    (t.results = s.results ++ [.err .busFailure] → t.coherent = false) ∧
    (i = .init → t.lifecycle = .ready → t.coherent = true) ∧
    (i ≠ .init → t.results ≠ s.results ++ [.err .busFailure] → t.coherent = s.coherent)

/-- 41_commands.md R121 to R129, 40_transmit.md R100 to R108: the parts write none of the block's fields; a bus failure
ends the request and clears `coherent`. -/
def Obligations.PartsWriteNoField : Prop :=
  ∀ (i : Instr) (s t : State), isRequest i = false → exec i s = .next t →
    t.lifecycle = s.lifecycle ∧ t.displayMode = s.displayMode ∧ t.displayControl = s.displayControl ∧
    t.backlight = s.backlight ∧ t.currentLine = s.currentLine ∧ t.cols = s.cols ∧ t.rows = s.rows ∧
    ((t.results = s.results ∧ t.coherent = s.coherent) ∨
      (t.results = s.results ++ [.err .busFailure] ∧ t.coherent = false ∧ t.pc = .idle))

/-! ### Whole-machine rules -/

/-- 20_memory.md R56, R60, R66, 10_state.md R38: an instruction takes nothing from the host port, only adds to the trace
and the results, takes one answer for each transaction it adds, and leaves the port at a value its events allow. The
answers and draws of the state, and the records at the host port, are the model's own fields (log entries 3, 10, 11). -/
def Obligations.HistoryOnlyGrows : Prop :=
  ∀ (i : Instr) (s t : State), exec i s = .next t →
    t.requests = s.requests ∧ s.results <+: t.results ∧
    ∃ evs, t.trace = s.trace ++ evs ∧ t.answers = s.answers.drop (txCount evs) ∧
      t.draws = s.draws + txCount evs ∧ t.port ∈ portsAfter evs s.port

/-- 00_scope.md R12, 40_transmit.md R104, R110: only the last event of an instruction can be a failed transaction: after
it there is no transaction and no wait. And a failed transaction ends every instruction but a backlight toggle with
`BusFailure`, and those with the fault `BacklightBusAbort`. That a row of a lower layer performed alone (TX, and
FRAME_RAW_LATCH, whose failure R108 leaves to the caller) ends with `BusFailure` is log entry 8. -/
def Obligations.FailureEndsTheRequest : Prop :=
  ∀ (i : Instr) (s t : State) (evs : List Event), exec i s = .next t → t.trace = s.trace ++ evs →
    (∀ e ∈ evs.dropLast, isFail e = false) ∧
    ((∃ e ∈ evs, isFail e = true) →
      if i = .backlightOn ∨ i = .backlightOff then t.lifecycle = .faulted .backlightBusAbort ∧ t.results = s.results
      else t.results = s.results ++ [.err .busFailure])

/-- 10_state.md R30, 60_exceptions.md R200: a request ends idle, with exactly one result returned to the host, or
faulted with none. -/
def Obligations.OneResultPerRequest : Prop :=
  ∀ (i : Instr) (s t : State), isRequest i = true → exec i s = .next t →
    t.pc = .idle ∧
    ((Alive t ∧ ∃ r, t.results = s.results ++ [r]) ∨ (t.results = s.results ∧ ∃ r, t.lifecycle = .faulted r))

/-- 40_transmit.md R109: every frame byte that a request sends carries the backlight flag as it is after the request, in
bit 3: for a toggle the new value, for every other request the unchanged one. -/
def Obligations.EveryFrameCarriesTheBacklight : Prop :=
  ∀ (i : Instr) (s t : State) (evs : List Event), isRequest i = true → exec i s = .next t →
    t.trace = s.trace ++ evs → EveryFrame (fun v => v.getLsbD 3 = t.backlight) evs

/-- 40_transmit.md R110, R101: a run whose `k`-th transaction fails has the events of an all-`ok` run of the same
instruction from the same state, up to that transaction. -/
def Obligations.FailedRunIsTruncatedRun : Prop :=
  ∀ (i : Instr) (s u : State) (answers : List Answer) (evs : List Event) (k : Nat),
    exec i { s with answers := answers } = .next u → u.trace = s.trace ++ evs → (∀ e ∈ evs, isFail e = false) →
    k < txCount evs → BusFailsAt k s →
    ∃ t, exec i s = .next t ∧ t.trace = s.trace ++ failedAt k evs

/-- 10_state.md R36: the fields without a value before init are never read before init writes them: two uninitialized
states that differ in them alone go on alike, and are the same once `Ready`. This makes the values of log entry 2
harmless. -/
def Obligations.UnsetFieldsAreNeverRead : Prop :=
  ∀ (i : Instr) (s t u : State) (mode control line : Byte), isRequest i = true → s.lifecycle = .uninitialized →
    exec i s = .next t →
    exec i { s with displayMode := mode, displayControl := control, currentLine := line } = .next u →
    AgreeButUnset t u ∧ (t.lifecycle = .ready → t = u)

/-- 10_state.md R38, 20_memory.md R46: the block never reads the expander's port: whatever the port held before, an
instruction goes on alike in everything but the port, and the port then is the same too, or still the one before. This
makes the value of log entry 22 harmless. -/
def Obligations.PortIsNeverRead : Prop :=
  ∀ (i : Instr) (s t : State) (port : Byte), exec i s = .next t →
    ∃ u, exec i { s with port := port } = .next u ∧ u = { t with port := u.port } ∧
      (u.port = t.port ∨ (u.port = port ∧ t.port = s.port))

/-- 30_encoding.md R86: printText is its prints in order, stopping at the first error; nextLine is the advance of
`current_line` and then setCursor at the row's start. As one request each, they return one result. -/
def Obligations.CompoundRequestsExpand : Prop :=
  (∀ (ch : Byte) (rest : List Byte) (s t : State), s.lifecycle = .ready → exec (.print ch) s = .next t →
    (t.results = s.results ++ [.err .busFailure] → exec (.printText (ch :: rest)) s = .next t) ∧
    (t.results = s.results ++ [.ok] → ∃ u r, exec (.printText rest) t = .next u ∧ u.results = s.results ++ [.ok, r] ∧
      exec (.printText (ch :: rest)) s = .next { u with results := s.results ++ [r] })) ∧
  ∀ s : State, s.lifecycle = .ready → s.rows ≠ 1 →
    exec .nextLine s = exec (.setCursor 0 (lineAfter s.currentLine s.rows))
      { s with currentLine := lineAfter s.currentLine s.rows }

/-! ### Invariants -/

/-- 10_state.md R28, R26, R35, R21: every step keeps the block's invariant, from every state. That the sequencer is idle
after a fault too is log entry 9. -/
def Obligations.StepKeepsTheInvariant : Prop :=
  ∀ s t : State, Inv s → step s = .next t → Inv t

/-- The invariants hold after construction, for every geometry, every value of the expander's port and every later input. -/
def Obligations.ConstructionMeetsTheInvariants : Prop :=
  ∀ (cols rows port : Byte) (requests : List (List Byte)) (answers : List Answer),
    let s := { State.construct cols rows port with requests := requests, answers := answers }
    Inv s ∧ TraceInv s

/-- 20_memory.md R46, 70_reset_and_hazards.md R235 and R236: every step keeps the trace free of frame bytes with RW set,
and keeps every enable pulse timed, from every state and for every answer of the bus. -/
def Obligations.StepKeepsTheTraceInvariant : Prop :=
  ∀ s t : State, TraceInv s → step s = .next t → TraceInv t

/-! ### What arrives downstream -/

/-- 40_transmit.md R105, 42_operations.md R151: what the enable line delivers in an all-`ok` printText is exactly the text,
each byte with register-select 1. The observer is log entry 15. -/
def Obligations.PrintTextDeliversTheText : Prop :=
  ∀ (text : List Byte) (s : State), s.lifecycle = .ready → BusOk (4 * text.length) s →
    ∃ t evs, exec (.printText text) s = .next t ∧ t.trace = s.trace ++ evs ∧
      delivered evs = text.map fun b => (b, true)

/-- 30_encoding.md R82: every command byte that a request other than init delivers in an all-`ok` run from a state that
meets the invariant is in the list of R82. The observer is log entry 15; no byte here has nibbles of two register-select
bits (log entry 21). -/
def Obligations.DeliveredCommandsAreListed : Prop :=
  ∀ (i : Instr) (s t : State) (evs : List Event), isRequest i = true → i ≠ .init → Inv s → exec i s = .next t →
    t.trace = s.trace ++ evs → (∀ e ∈ evs, isFail e = false) →
    ∀ d ∈ delivered evs, d.2 = false → isEmittedCommand d.1 = true

/-- 42_operations.md R143, 70_reset_and_hazards.md R233 and R234: an all-`ok` init latches the nibbles 3, 3, 3, 2, which
bring an HD44780 of any interface width and nibble phase to 4-bit mode expecting a high nibble, and then delivers Function
set, Display control, Clear, Entry mode and Home. The HD44780's phases are R234's own general knowledge (log entry 15). The
last clause is for a high nibble held from a data send that failed: should the byte it makes with the first nibble be data
and not a command, which the spec leaves open (log entry 21), the nibbles after it end in the same phase. -/
def Obligations.InitResynchronises : Prop :=
  ∀ s : State, Alive s → BusOk 29 s →
    ∃ t evs, exec .init s = .next t ∧ t.trace = s.trace ++ evs ∧
      (latched false evs).take 4 = [(3, false), (3, false), (3, false), (2, false)] ∧
      paired ((latched false evs).drop 4) =
        [(if 1 < s.rows.toNat then 0x28 else 0x20, false), (0x0C, false), (0x01, false), (0x06, false),
          (0x02, false)] ∧
      (∀ p : LcdPhase, (((latched false evs).take 4).map Prod.fst).foldl phaseStep p = .highNext) ∧
      ((((latched false evs).take 4).drop 1).map Prod.fst).foldl phaseStep .highNext = .highNext

/-- 70_reset_and_hazards.md R238: a bus failure at the third transaction of a send, of a command or of data, leaves the
high nibble latched and its partner not; a print in which that happens returns `BusFailure`, and `coherent` is clear. The
observer is log entry 15. -/
def Obligations.FailureBetweenNibblesLeavesOne : Prop :=
  (∀ (value : Byte) (rs : Bool) (s : State), BusFailsAt 2 s →
    ∃ t evs, send value rs s = .raise .busFailure t ∧ t.trace = s.trace ++ evs ∧
      latched false evs = [(value.extractLsb' 4 4, rs)]) ∧
  ∀ (ch : Byte) (s : State), s.lifecycle = .ready → BusFailsAt 2 s →
    ∃ t evs, exec (.print ch) s = .next t ∧ t.trace = s.trace ++ evs ∧ latched false evs = [(ch.extractLsb' 4 4, true)] ∧
      t.results = s.results ++ [.err .busFailure] ∧ t.coherent = false

/-- 70_reset_and_hazards.md R242: what follows an enable line left high by a failed transaction. A backlight toggle, and
init, latch a stray nibble 0; a data byte latches its own two nibbles only, and the failed one is lost. The latching edge
is the spec's general knowledge. -/
def Obligations.EnableLeftHighLatchesAStrayNibble : Prop :=
  (∀ (s : State) (on : Bool), s.lifecycle = .ready → BusOk 1 s →
    ∃ t evs, exec (if on then .backlightOn else .backlightOff) s = .next t ∧ t.trace = s.trace ++ evs ∧
      latched true evs = [(0, false)]) ∧
  (∀ s : State, Alive s → BusOk 29 s →
    ∃ t evs, exec .init s = .next t ∧ t.trace = s.trace ++ evs ∧ latched true evs = (0, false) :: latched false evs) ∧
  ∀ (ch : Byte) (s : State), s.lifecycle = .ready → BusOk 4 s →
    ∃ t evs, exec (.print ch) s = .next t ∧ t.trace = s.trace ++ evs ∧
      latched true evs = [(ch.extractLsb' 4 4, true), (ch.extractLsb' 0 4, true)]

/-- 70_reset_and_hazards.md R246: the minimum durations of an all-`ok` send and of all-`ok` requests. -/
def Obligations.MinimumDurations : Prop :=
  (∀ (value : Byte) (rs : Bool) (s t : State) (evs : List Event), BusOk 4 s → send value rs s = .go t →
    t.trace = s.trace ++ evs → minMicros evs = 102) ∧
  ∀ (s t : State) (i : Instr) (evs : List Event), s.lifecycle = .ready → BusOk (txCount evs) s →
    exec i s = .next t → t.trace = s.trace ++ evs →
    (i = .init → minMicros evs = 69214) ∧
    (i = .clear ∨ i = .home → minMicros evs = 2102) ∧
    (i = .displayOn ∨ i = .displayOff ∨ i = .scrollLeft ∨ i = .scrollRight ∨ i = .textDirectionLeftToRight ∨
      i = .textDirectionRightToLeft ∨ (∃ on, i = .autoscroll on) ∨ (∃ ch, i = .print ch) → minMicros evs = 102) ∧
    (i = .backlightOn ∨ i = .backlightOff → minMicros evs = 0) ∧
    (∀ col row offsets, i = .setCursor col row → RowTable s.rows offsets → row.toNat < s.rows.toNat →
      minMicros evs = 102) ∧
    (∀ offsets, i = .nextLine → RowTable s.rows offsets → s.rows ≠ 1 → minMicros evs = 102) ∧
    (∀ slot pattern, i = .defineCustomGlyph slot pattern → slot.toNat ≤ 7 → pattern.length = 8 →
      minMicros evs = 918) ∧
    (∀ text, i = .printText text → minMicros evs = 102 * text.length) ∧
    (∀ text offsets, i = .printWrapped text → RowTable s.rows offsets → s.cols ≠ 0 →
      minMicros evs = 204 * text.length)
end

