-- ==== Sys2Proof/Laws/Requests.lean ====
section
/-! SUPPORT. What the bodies of the requests do, one lemma per body and case, so that no proof unfolds a body. -/

namespace Sys2Proof.Machine

open Sys2Proof.Safety

/-! ### Row offsets and addresses -/

theorem rowOffsets_of_rowTable {rows : Byte} {offsets : List Byte} (h : RowTable rows offsets) :
    rowOffsets rows = some offsets := by
  rcases h with ⟨rfl, rfl⟩ | ⟨rfl, rfl⟩ | ⟨rfl, rfl⟩ <;> rfl

theorem rowOffsets_of_unsupported {rows : Byte} (h : UnsupportedRows rows) : rowOffsets rows = none := by
  obtain ⟨h1, h2, h4⟩ := h
  unfold rowOffsets
  rw [if_neg h1, if_neg h2, if_neg h4]

/-- Every row count has a table or is unsupported. -/
theorem rowTable_or_unsupported (rows : Byte) : (∃ offsets, RowTable rows offsets) ∨ UnsupportedRows rows := by
  by_cases h1 : rows = 1
  · exact .inl ⟨_, .inl ⟨h1, rfl⟩⟩
  by_cases h2 : rows = 2
  · exact .inl ⟨_, .inr (.inl ⟨h2, rfl⟩)⟩
  by_cases h4 : rows = 4
  · exact .inl ⟨_, .inr (.inr ⟨h4, rfl⟩)⟩
  · exact .inr ⟨h1, h2, h4⟩

/-- The command that setCursor sends (20_memory.md R50). -/
theorem setDdramByte_eq_cellCommand (offsets : List Byte) (col row : Byte) :
    setDdramByte (ddramAddr col (rowOffset offsets row)) = cellCommand offsets col.toNat row.toNat := by
  unfold setDdramByte ddramAddr rowOffset cellCommand opSetDdram
  congr 1
  apply BitVec.eq_of_toNat_eq
  simp

theorem nextRow_eq_lineAfter (currentLine rows : Byte) : nextRow currentLine rows = lineAfter currentLine rows := rfl

/-- The next row is a row, unless there are none (R159). -/
theorem lineAfter_lt (currentLine rows : Byte) (h : rows ≠ 0) : (lineAfter currentLine rows).toNat < rows.toNat := by
  have h0 : rows.toNat ≠ 0 := fun h' => h (BitVec.eq_of_toNat_eq h')
  have := rows.isLt
  unfold lineAfter
  split
  · simp; omega
  · simp; omega

/-! ### Bodies -/

theorem setCursorBody_outOfRange (col row : Byte) (s : State) (h : s.rows.toNat ≤ row.toNat) :
    setCursorBody col row s = .raise .rowOutOfRange s := by
  unfold setCursorBody
  rw [if_pos (BitVec.le_def.mpr h)]

theorem setCursorBody_unsupported (col row : Byte) (s : State) (h : row.toNat < s.rows.toNat)
    (hu : UnsupportedRows s.rows) : setCursorBody col row s = .raise .unsupportedRowCount s := by
  unfold setCursorBody
  rw [if_neg (by rw [BitVec.le_def]; omega), rowOffsets_of_unsupported hu]

theorem setCursorBody_inRange (col row : Byte) (s : State) {offsets : List Byte} (h : row.toNat < s.rows.toNat)
    (ht : RowTable s.rows offsets) :
    setCursorBody col row s = (cmd (cellCommand offsets col.toNat row.toNat) s).andThen (setCurrentLine row) := by
  unfold setCursorBody fmtSetDdram
  rw [if_neg (by rw [BitVec.le_def]; omega), rowOffsets_of_rowTable ht]
  simp only [setDdramByte_eq_cellCommand]

theorem cmd_performs (b : Byte) (s : State) : Performs (cmd b s) s (sendEvents s.backlight b false) :=
  send_performs b false s

theorem dataBytes_performs (bytes : List Byte) (s : State) :
    Performs (dataBytes bytes s) s (dataEvents s.backlight bytes) := by
  induction bytes generalizing s with
  | nil => exact perform_performs [] s
  | cons b rest ih => exact (fmtData_performs b s).andThen (ih _)

@[simp] theorem txCount_dataEvents (light : Bool) (bytes : List Byte) :
    txCount (dataEvents light bytes) = 4 * bytes.length := by
  induction bytes with
  | nil => rfl
  | cons b rest ih =>
    show txCount (sendEvents light b true ++ dataEvents light rest) = _
    rw [txCount_append, ih]
    simp
    omega

theorem defineCustomGlyphBody_outOfRange (slot : Byte) (pattern : List Byte) (s : State) (h : 7 < slot.toNat) :
    defineCustomGlyphBody slot pattern s = .raise .glyphSlotOutOfRange s := by
  unfold defineCustomGlyphBody glyphSlots
  rw [if_pos (by omega)]

theorem setCgramByte_eq (slot : Byte) (h : slot.toNat ≤ 7) : setCgramByte slot = BitVec.ofNat 8 (64 + 8 * slot.toNat) := by
  have : ∀ b : Byte, b.toNat ≤ 7 → setCgramByte b = BitVec.ofNat 8 (64 + 8 * b.toNat) := by decide
  exact this slot h

theorem defineCustomGlyphBody_performs (slot : Byte) (pattern : List Byte) (s : State) (h : slot.toNat ≤ 7) :
    Performs (defineCustomGlyphBody slot pattern s) s
      (sendEvents s.backlight (BitVec.ofNat 8 (64 + 8 * slot.toNat)) false ++ dataEvents s.backlight pattern) := by
  unfold defineCustomGlyphBody glyphSlots fmtSetCgram
  rw [if_neg (by omega), setCgramByte_eq slot h]
  exact (cmd_performs _ s).andThen (dataBytes_performs pattern _)

/-- The events of init up to the 0x2 nibble (70_reset_and_hazards.md R233, steps 1 to 5). -/
def resetEvents (light : Bool) : List Event :=
  [.wait 50000, .tx (lightImage light) .ok, .wait 1000] ++
  nibbleEvents (0x30 ||| lightImage light) ++ [.wait 4500] ++
  nibbleEvents (0x30 ||| lightImage light) ++ [.wait 4500] ++
  nibbleEvents (0x30 ||| lightImage light) ++ [.wait 4500] ++
  nibbleEvents (0x20 ||| lightImage light)

theorem resetNibbles_performs (s : State) : Performs (resetNibbles s) s (resetEvents s.backlight) := by
  have h1 := (((waitFor_performs tPower s).andThen (rawLatch_performs _)).andThen (waitFor_performs tLatch _))
  have h2 := (h1.andThen (rawNibble3_performs _)).andThen (waitFor_performs tResetNibble _)
  have h3 := (h2.andThen (rawNibble3_performs _)).andThen (waitFor_performs tResetNibble _)
  have h4 := (h3.andThen (rawNibble3_performs _)).andThen (g := fun s₁ => (waitFor tResetNibble s₁).andThen (rawNibble 0x2))
    ((waitFor_performs tResetNibble _).andThen (rawNibble2_performs _))
  simpa [resetEvents, resetNibbles, tPower, tLatch, tResetNibble] using h4

end Sys2Proof.Machine
end

