-- ==== Sys2Proof/Laws/Updates.lean ====
section
/-! SUPPORT. Bodies that write fields between their events: the events and the field writes are followed apart. -/

namespace Sys2Proof.Machine

open Sys2Proof.Safety

/-- An update of the block's own fields: it commutes with events, and the bus and the port do not see it. -/
structure FieldUpdate (u : State → State) : Prop where
  emitted : ∀ e p s, u (emitted e p s) = Safety.emitted e p (u s)
  answers : ∀ k s, answerAt k (u s) = answerAt k s
  port : ∀ s, (u s).port = s.port

theorem FieldUpdate.id : FieldUpdate id := ⟨fun _ _ _ => rfl, fun _ _ => rfl, fun _ => rfl⟩

theorem FieldUpdate.comp {u v : State → State} (hu : FieldUpdate u) (hv : FieldUpdate v) : FieldUpdate (u ∘ v) :=
  ⟨fun e p s => by simp [hv.emitted, hu.emitted], fun k s => by simp [hu.answers, hv.answers],
    fun s => by simp [hu.port, hv.port]⟩

theorem FieldUpdate.afterOk {u : State → State} (hu : FieldUpdate u) (e : List Event) (s : State) :
    u (afterOk e s) = Safety.afterOk e (u s) := by
  simp only [Safety.afterOk, hu.emitted, hu.port]

theorem fieldUpdate_setCurrentLine (row : Byte) : FieldUpdate fun s => { s with currentLine := row } :=
  ⟨fun _ _ _ => rfl, fun _ _ => rfl, fun _ => rfl⟩

/-- A flow from `s` that makes the events `e` and writes fields: `fin` when all has gone well, `mid k` when transaction
`k` has failed. -/
structure PerformsWith (f : Flow) (s : State) (e : List Event) (mid : Nat → State → State) (fin : State → State) :
    Prop where
  allOk : AllOk e
  midUpdate : ∀ k, FieldUpdate (mid k)
  finUpdate : FieldUpdate fin
  goes : BusOk (txCount e) s → f = .go (afterOk e (fin s))
  raises : ∀ k < txCount e, BusFailsAt k s →
    ∃ p ∈ portsAfter (failedAt k e) s.port, f = .raise .busFailure (emitted (failedAt k e) p (mid k s))

theorem Performs.with {f : Flow} {s : State} {e : List Event} (h : Performs f s e) :
    PerformsWith f s e (fun _ => id) id :=
  ⟨h.allOk, fun _ => FieldUpdate.id, FieldUpdate.id, h.goes, h.raises⟩

/-- Fields written before a part that performs events. -/
theorem Performs.withBefore {f : Flow} {s : State} {e : List Event} {u : State → State} (hu : FieldUpdate u)
    (h : Performs f (u s) e) : PerformsWith f s e (fun _ => u) u := by
  refine ⟨h.allOk, fun _ => hu, hu, fun hb => ?_, fun k hk hf => ?_⟩
  · exact h.goes fun k hk => (hu.answers k s).trans (hb k hk)
  · obtain ⟨p, hp, hr⟩ := h.raises k hk ⟨fun j hj => (hu.answers j s).trans (hf.1 j hj), (hu.answers k s).trans hf.2⟩
    exact ⟨p, by rwa [hu.port] at hp, hr⟩

/-- Fields written after a part that performs events. -/
theorem PerformsWith.thenWrite {f : Flow} {s : State} {e : List Event} {mid : Nat → State → State}
    {fin u : State → State} (h : PerformsWith f s e mid fin) (hu : FieldUpdate u) :
    PerformsWith (f.andThen fun s => .go (u s)) s e mid (u ∘ fin) := by
  refine ⟨h.allOk, h.midUpdate, hu.comp h.finUpdate, fun hb => ?_, fun k hk hf => ?_⟩
  · rw [h.goes hb]
    simp only [Flow.andThen, hu.afterOk, Function.comp]
  · obtain ⟨p, hp, hr⟩ := h.raises k hk hf
    exact ⟨p, hp, by rw [hr]; rfl⟩

/-- One part after another, with their field writes. -/
theorem PerformsWith.andThen {f : Flow} {g : State → Flow} {s : State} {a b : List Event}
    {mid mid' : Nat → State → State} {fin fin' : State → State} (hf : PerformsWith f s a mid fin)
    (hg : PerformsWith (g (afterOk a (fin s))) (afterOk a (fin s)) b mid' fin') :
    PerformsWith (f.andThen g) s (a ++ b) (fun k => if k < txCount a then mid k else mid' (k - txCount a) ∘ fin)
      (fin' ∘ fin) := by
  have hans : ∀ j, answerAt j (afterOk a (fin s)) = answerAt (txCount a + j) s := fun j => by
    rw [answerAt_afterOk, hf.finUpdate.answers]
  refine ⟨allOk_append.mpr ⟨hf.allOk, hg.allOk⟩, fun k => ?_, hg.finUpdate.comp hf.finUpdate, fun h => ?_,
    fun k hk hfail => ?_⟩
  · split
    · exact hf.midUpdate k
    · exact (hg.midUpdate _).comp hf.finUpdate
  · have h1 := hf.goes fun k hk => h k (by simp; omega)
    have h2 := hg.goes fun k hk => (hans k).trans (h _ (by simp; omega))
    rw [h1]
    simp only [Flow.andThen, h2, hg.finUpdate.afterOk, afterOk_afterOk a b _ hf.allOk, Function.comp]
  · by_cases hka : k < txCount a
    · obtain ⟨p, hp, h⟩ := hf.raises k hka hfail
      rw [failedAt_append_left k a b hka]
      exact ⟨p, hp, by rw [h]; simp [Flow.andThen, hka]⟩
    · obtain ⟨j, rfl⟩ := Nat.exists_eq_add_of_le (Nat.le_of_not_lt hka)
      have h1 := hf.goes fun i hi => hfail.1 i (by omega)
      obtain ⟨p, hp, h⟩ := hg.raises j (by simp at hk; omega)
        ⟨fun i hi => (hans i).trans (hfail.1 _ (by omega)), (hans j).trans hfail.2⟩
      rw [failedAt_append_right, portsAfter_append a _ _ hf.allOk]
      refine ⟨p, by simpa [Safety.afterOk, hf.finUpdate.port] using hp, ?_⟩
      rw [h1]
      show g (Safety.afterOk a (fin s)) = _
      rw [h, (hg.midUpdate j).afterOk, Safety.afterOk, emitted_emitted]
      simp

/-- The same flow, with its events and field writes said in another way. -/
theorem PerformsWith.congr {f : Flow} {s : State} {e e' : List Event} {mid mid' : Nat → State → State}
    {fin fin' : State → State} (h : PerformsWith f s e mid fin) (he : e = e') (hf : fin = fin')
    (hm : ∀ k < txCount e, mid k = mid' k) (hu : ∀ k, FieldUpdate (mid' k)) : PerformsWith f s e' mid' fin' := by
  subst he hf
  refine ⟨h.allOk, hu, h.finUpdate, h.goes, fun k hk hfail => ?_⟩
  rw [← hm k hk]
  exact h.raises k hk hfail

/-- A body with field writes, run as a request from `Ready`. -/
theorem runRequest_performsWith {body : State → Flow} {s : State} {e : List Event} {mid : Nat → State → State}
    {fin : State → State} (hl : s.lifecycle = .ready)
    (h : PerformsWith (body (loadSequence s)) (loadSequence s) e mid fin) :
    (BusOk (txCount e) s → runRequest body s = .next (returned .ok (afterOk e (fin (loadSequence s))))) ∧
    ∀ k < txCount e, BusFailsAt k s → FailsAt k e (mid k (loadSequence s)) (runRequest body s) := by
  rw [runRequest_ready body s hl]
  refine ⟨fun hb => by rw [h.goes hb]; rfl, fun k hk hf => ?_⟩
  obtain ⟨p, hp, hr⟩ := h.raises k hk hf
  exact ⟨p, by rw [(h.midUpdate k).port]; exact hp, by rw [hr]; rfl⟩

/-- setCursor on a cell of the display (42_operations.md R149). -/
theorem setCursorBody_performsWith (col row : Byte) (s : State) {offsets : List Byte} (h : row.toNat < s.rows.toNat)
    (ht : RowTable s.rows offsets) :
    PerformsWith (setCursorBody col row s) s (sendEvents s.backlight (cellCommand offsets col.toNat row.toNat) false)
      (fun _ => id) (fun s => { s with currentLine := row }) := by
  rw [setCursorBody_inRange col row s h ht]
  exact (cmd_performs _ s).with.thenWrite (fieldUpdate_setCurrentLine row)

end Sys2Proof.Machine
end

