-- ==== Sys2Proof/Laws/Blocks.lean ====
section
/-! SUPPORT. The shape of what requests emit: waits, raw latches and nibble frames that all carry one backlight value,
cut off at the first failure; and what a body leaves of the host port, the results, the geometry and the history. -/

namespace Sys2Proof.Machine

open Sys2Proof.Safety

/-- A frame byte with EN and RW clear that carries the backlight value. -/
def LowFrame (light : Bool) (f : Byte) : Prop := f.getLsbD 1 = false ∧ f.getLsbD 2 = false ∧ f.getLsbD 3 = light

/-- Events made of waits, raw latches and nibble frames, all with one backlight value, up to the first failure. -/
inductive Blocks (light : Bool) : List Event → Prop
  | nil : Blocks light []
  | wait {t : Nat} {e : List Event} : Blocks light e → Blocks light (.wait t :: e)
  | latch {e : List Event} : Blocks light e → Blocks light (.tx (lightImage light) .ok :: e)
  | nibble {f : Byte} {e : List Event} : LowFrame light f → Blocks light e → Blocks light (nibbleEvents f ++ e)
  | latchFails : Blocks light [.tx (lightImage light) .fail]
  | highFails {f : Byte} : LowFrame light f → Blocks light [.tx (f ||| 0x04) .fail]
  | lowFails {f : Byte} : LowFrame light f → Blocks light [.tx (f ||| 0x04) .ok, .wait 1, .tx f .fail]

theorem Blocks.append {light : Bool} {a b : List Event} (ha : Blocks light a) (hok : AllOk a) (hb : Blocks light b) :
    Blocks light (a ++ b) := by
  induction ha with
  | nil => exact hb
  | wait _ ih => exact .wait (ih fun x hx => hok x (by simp [hx]))
  | latch _ ih => exact .latch (ih fun x hx => hok x (by simp [hx]))
  | nibble hf _ ih =>
    rw [List.append_assoc]
    exact .nibble hf (ih fun x hx => hok x (by simp [hx]))
  | latchFails => simpa [isFail] using hok _ (by simp : Event.tx (lightImage light) .fail ∈ _)
  | @highFails f hf => simpa [isFail] using hok (.tx (f ||| 0x04) .fail) (by simp)
  | @lowFails f hf => simpa [isFail] using hok (.tx f .fail) (by simp)

theorem Blocks.failedAt {light : Bool} {a : List Event} (ha : Blocks light a) (hok : AllOk a) (k : Nat) :
    Blocks light (Safety.failedAt k a) := by
  induction ha generalizing k with
  | nil => exact .nil
  | wait _ ih => exact .wait (ih (fun x hx => hok x (by simp [hx])) k)
  | latch _ ih =>
    cases k with
    | zero => exact .latchFails
    | succ k => exact .latch (ih (fun x hx => hok x (by simp [hx])) k)
  | nibble hf _ ih =>
    match k with
    | 0 => exact .highFails hf
    | 1 => exact .lowFails hf
    | k + 2 => exact .nibble hf (ih (fun x hx => hok x (by simp [hx])) k)
  | latchFails => simpa [isFail] using hok _ (by simp : Event.tx (lightImage light) .fail ∈ _)
  | @highFails f hf => simpa [isFail] using hok (.tx (f ||| 0x04) .fail) (by simp)
  | @lowFails f hf => simpa [isFail] using hok (.tx f .fail) (by simp)

theorem lowFrame_nibble (light rs : Bool) (d : Byte) :
    LowFrame light ((d &&& 0xF0) ||| modeBit rs ||| lightImage light) := by
  cases light <;> cases rs <;> simp [LowFrame, modeBit, lightImage]

theorem blocks_sendEvents (light : Bool) (b : Byte) (rs : Bool) : Blocks light (sendEvents light b rs) := by
  unfold sendEvents
  have h := Blocks.nibble (lowFrame_nibble light rs b)
    (Blocks.nibble (lowFrame_nibble light rs (b <<< 4)) (Blocks.nil (light := light)))
  simpa using h

end Sys2Proof.Machine
end

