-- ==== Sys2Proof/Laws/Bodies.lean ====
section
/-! SUPPORT. The two bodies that write several fields between their events: init and printWrapped. -/

namespace Sys2Proof.Machine

open Sys2Proof.Safety

theorem fieldUpdate_setDisplayControl (x : Byte) : FieldUpdate fun s => { s with displayControl := x } :=
  ⟨fun _ _ _ => rfl, fun _ _ => rfl, fun _ => rfl⟩

theorem fieldUpdate_setDisplayMode (x : Byte) : FieldUpdate fun s => { s with displayMode := x } :=
  ⟨fun _ _ _ => rfl, fun _ _ => rfl, fun _ => rfl⟩

theorem fieldUpdate_setLifecycle (x : Lifecycle) : FieldUpdate fun s => { s with lifecycle := x } :=
  ⟨fun _ _ _ => rfl, fun _ _ => rfl, fun _ => rfl⟩

theorem fieldUpdate_enterReady : FieldUpdate fun s => { s with lifecycle := .ready, coherent := true } :=
  ⟨fun _ _ _ => rfl, fun _ _ => rfl, fun _ => rfl⟩

@[simp] theorem txCount_initEvents (light : Bool) (rows : Byte) : txCount (initEvents light rows) = 29 := by
  simp [initEvents, txCount]

/-- What init's body does (42_operations.md R143): its events, and the fields it has written at each transaction. -/
theorem initBody_performsWith (s : State) : ∃ mid, PerformsWith (initBody s) s (initEvents s.backlight s.rows) mid
    (fun s => { s with
      lifecycle := .ready, displayControl := 4, displayMode := 2, currentLine := 0, coherent := true }) ∧
    ∀ k < 29, mid k = fun s => { s with
      lifecycle := .uninitialized
      displayControl := if 13 ≤ k then 0x04 else s.displayControl
      currentLine := if 21 ≤ k then 0 else s.currentLine
      displayMode := if 21 ≤ k then 0x02 else s.displayMode } := by
  have start := (resetNibbles_performs { s with lifecycle := .uninitialized }).withBefore (s := s)
    (u := fun s => { s with lifecycle := .uninitialized }) (fieldUpdate_setLifecycle _)
  have funcSet := fun s : State => (fmtFuncSet_performs s).with
  have dispCtl := fun s : State => (fmtDispCtl_performs { s with displayControl := 0x04 }).withBefore (s := s)
    (u := fun s => { s with displayControl := 0x04 }) (fieldUpdate_setDisplayControl _)
  have clear := fun s : State => (fmtClear_performs s).with.thenWrite (fieldUpdate_setCurrentLine 0)
  have entry := fun s : State => (fmtEntry_performs { s with displayMode := 0x02 }).withBefore (s := s)
    (u := fun s => { s with displayMode := 0x02 }) (fieldUpdate_setDisplayMode _)
  have home := fun s : State => (fmtHome_performs s).with
  have whole := (start.andThen (g := configureLcd)
    (((((funcSet _).andThen (dispCtl _)).andThen (clear _)).andThen (entry _)).andThen (home _))).thenWrite
    fieldUpdate_enterReady
  refine ⟨_, whole.congr ?_ ?_ (fun _ _ => rfl) whole.midUpdate, ?_⟩
  · simp [initEvents, resetEvents]
  · rfl
  · intro k hk
    have hr : ∀ b, txCount (resetEvents b) = 9 := fun _ => rfl
    simp only [hr, txCount_append, txCount_sendEvents, txCount]
    split_ifs <;> first | (exfalso; omega) | (funext s; simp only [Function.comp, id])

@[simp] theorem txCount_wrappedEvents (light : Bool) (cols rows : Byte) (offsets : List Byte) (i : Nat)
    (text : List Byte) : txCount (wrappedEvents light cols rows offsets i text) = 8 * text.length := by
  induction text generalizing i with
  | nil => rfl
  | cons a rest ih => simp [wrappedEvents, ih]; omega

theorem toNat_ne_zero {b : Byte} (h : b ≠ 0) : b.toNat ≠ 0 := fun h' => h (BitVec.eq_of_toNat_eq h')

theorem rowTable_pos {rows : Byte} {offsets : List Byte} (h : RowTable rows offsets) : 0 < rows.toNat := by
  rcases h with ⟨h, _⟩ | ⟨h, _⟩ | ⟨h, _⟩ <;> rw [h] <;> decide

theorem wrapRow_toNat (cols rows : Byte) (i : Nat) : (wrapRow cols rows i).toNat = cellRow cols rows i := by
  have := rows.isLt
  unfold wrapRow cellRow
  split
  · rfl
  · simp; omega

theorem wrapCol_toNat (cols : Byte) (i : Nat) (h : cols ≠ 0) : (wrapCol cols i).toNat = i % cols.toNat := by
  have := cols.isLt
  have := Nat.mod_lt i (Nat.pos_of_ne_zero (toNat_ne_zero h))
  unfold wrapCol
  simp
  omega

theorem cellRow_lt (cols rows : Byte) (i : Nat) (h : 0 < rows.toNat) : cellRow cols rows i < rows.toNat := by
  unfold cellRow
  split <;> omega

/-- What printWrapped does on a usable geometry (R152): its events from character `i` on, and the row it has written at
each transaction. -/
theorem printWrappedFrom_performsWith (offsets text : List Byte) (i : Nat) (s : State) (ht : RowTable s.rows offsets)
    (hc : s.cols ≠ 0) : ∃ mid fin,
    PerformsWith (printWrappedFrom text i s) s (wrappedEvents s.backlight s.cols s.rows offsets i text) mid fin ∧
    (fin = fun s' => { s' with
      currentLine := if text = [] then s'.currentLine else BitVec.ofNat 8 (cellRow s.cols s.rows (i + text.length - 1)) }) ∧
    ∀ k < 8 * text.length, mid k = fun s' => { s' with
      currentLine := if (k + 4) / 8 = 0 then s'.currentLine
        else BitVec.ofNat 8 (cellRow s.cols s.rows (i + (k + 4) / 8 - 1)) } := by
  induction text generalizing i s with
  | nil =>
    refine ⟨_, _, (perform_performs [] s).with, ?_, ?_⟩
    · funext s; simp
    · intro k hk; simp at hk
  | cons ch rest ih =>
    have hrow := wrapRow_toNat s.cols s.rows i
    have hcol := wrapCol_toNat s.cols i hc
    have hlt : (wrapRow s.cols s.rows i).toNat < s.rows.toNat := by
      rw [hrow]; exact cellRow_lt s.cols s.rows i (rowTable_pos ht)
    have place := setCursorBody_performsWith (wrapCol s.cols i) (wrapRow s.cols s.rows i) s hlt ht
    rw [hrow, hcol] at place
    have data := fun s : State => (fmtData_performs ch s).with
    obtain ⟨mid, fin, tail, hfin, hmid⟩ := ih (i + 1)
      (Safety.afterOk (sendEvents s.backlight ch true) (Safety.afterOk
        (sendEvents s.backlight (cellCommand offsets (i % s.cols.toNat) (cellRow s.cols s.rows i)) false)
        { s with currentLine := wrapRow s.cols s.rows i })) ht hc
    have whole := place.andThen
      (g := fun s₁ => (fmtData ch s₁).andThen fun s₂ => printWrappedFrom rest (i + 1) s₂) ((data _).andThen tail)
    have hunfold : printWrappedFrom (ch :: rest) i s =
        (setCursorBody (wrapCol s.cols i) (wrapRow s.cols s.rows i) s).andThen fun s₁ =>
          (fmtData ch s₁).andThen fun s₂ => printWrappedFrom rest (i + 1) s₂ := by
      rw [printWrappedFrom, if_neg hc]
    have hwr : wrapRow s.cols s.rows i = BitVec.ofNat 8 (cellRow s.cols s.rows i) := by rw [← hrow]; simp
    rw [hunfold]
    refine ⟨_, _, whole.congr ?_ rfl (fun _ _ => rfl) whole.midUpdate, ?_, ?_⟩
    · simp [wrappedEvents]
    · rw [hfin]
      funext s'
      simp only [Function.comp, id]
      by_cases h : rest = []
      · subst h; simp [hwr]
      · have hl : 0 < rest.length := List.length_pos_iff.mpr h
        simp only [h, if_false, List.cons_ne_nil, List.length_cons]
        rw [show i + 1 + rest.length - 1 = i + (rest.length + 1) - 1 by omega]
        rfl
    · intro k hk
      simp only [txCount_sendEvents]
      by_cases h1 : k < 4
      · have : (k + 4) / 8 = 0 := by omega
        simp only [h1, if_true]
        funext s'
        simp [this]
      · simp only [h1, if_false]
        by_cases h2 : k - 4 < 4
        · have : (k + 4) / 8 = 1 := by omega
          simp only [h2, if_true]
          funext s'
          simp [this, hwr]
        · simp only [h2, if_false]
          have hk' : k - 4 - 4 < 8 * rest.length := by simp at hk; omega
          rw [hmid _ hk']
          funext s'
          have h8 : (k + 4) / 8 = (k - 4 - 4 + 4) / 8 + 1 := by omega
          simp only [Function.comp, id, h8]
          by_cases h0 : (k - 4 - 4 + 4) / 8 = 0
          · simp [h0, hwr]
          · rw [if_neg h0, if_neg (by omega),
              show i + 1 + (k - 4 - 4 + 4) / 8 - 1 = i + ((k - 4 - 4 + 4) / 8 + 1) - 1 by omega]
            rfl

end Sys2Proof.Machine
end

