-- ==== Sys2Proof/Laws/Decode.lean ====
section
/-! SUPPORT. Decoding at the host port and the legal records say the same; what the decoder of the host port answers. -/

namespace Sys2Proof

/-- The codes of the requests that take arguments (R71). -/
def takesArgs (code : Byte) : Bool :=
  code == 0x07 || code == 0x08 || code == 0x09 || code == 0x0A || code == 0x0B || code == 0x12

theorem decodeBare_isSome (code : Byte) (h : takesArgs code = false) :
    (decodeBare code).isSome = (decide (1 ≤ code.toNat) && decide (code.toNat ≤ 0x12)) := by
  revert code; decide

/-- A code and its arguments decode exactly when they are legal (R71, R72). -/
theorem decodeArgs_isSome (code : Byte) (args : List Byte) : (decodeArgs code args).isSome = legalArgs code args := by
  by_cases h7 : code = 0x07
  · subst h7; rcases args with _ | ⟨a, _ | ⟨b, _ | ⟨c, r⟩⟩⟩ <;> simp [decodeArgs, legalArgs]
  by_cases h8 : code = 0x08
  · subst h8; rcases args with _ | ⟨a, _ | ⟨b, r⟩⟩ <;> simp [decodeArgs, legalArgs]
  by_cases h9 : code = 0x09
  · subst h9; simp [decodeArgs, legalArgs]
  by_cases hA : code = 0x0A
  · subst hA; simp [decodeArgs, legalArgs]
  by_cases hB : code = 0x0B
  · subst hB
    rcases args with _ | ⟨a, _ | ⟨b, r⟩⟩
    · simp [decodeArgs, legalArgs]
    · by_cases h1 : a = 0x01
      · subst h1; rfl
      · by_cases h0 : a = 0x00
        · subst h0; rfl
        · simp only [BitVec.ofNat_eq_ofNat] at h1 h0
          simp [decodeArgs, legalArgs, isBoolByte, h1, h0]
    · simp [decodeArgs, legalArgs]
  by_cases hG : code = 0x12
  · subst hG
    rcases args with _ | ⟨slot, pattern⟩
    · rfl
    · by_cases hl : pattern.length = 8 <;> simp [decodeArgs, legalArgs, hl]
  · simp only [BitVec.ofNat_eq_ofNat] at h7 h8 h9 hA hB hG
    have hb := decodeBare_isSome code (by simp [takesArgs, h7, h8, h9, hA, hB, hG])
    cases args with
    | nil => simp [decodeArgs, legalArgs, h7, h8, h9, hA, hB, hG, hb]
    | cons a r => simp [decodeArgs, legalArgs, h7, h8, h9, hA, hB, hG]

/-- A legal record decodes to the request its code names. -/
theorem decodeRequest_cons {code : Byte} {args : List Byte} {i : Instr} (h : decodeArgs code args = some i) :
    decodeRequest (code :: args) = i := by
  simp [decodeRequest, h]

/-- A record that is not legal decodes to ILLEGAL_REQUEST (R84). -/
theorem decodeRequest_illegal (bytes : List Byte) (h : legalRequest bytes = false) :
    decodeRequest bytes = .illegalRequest bytes := by
  cases bytes with
  | nil => rfl
  | cons code args =>
    have hn : decodeArgs code args = none := by
      simpa [legalRequest, ← decodeArgs_isSome] using h
    simp [decodeRequest, hn]

theorem decodeBare_all_isRequest (code : Byte) : (decodeBare code).all Safety.isRequest = true := by revert code; decide

theorem decodeArgs_all_isRequest (code : Byte) (args : List Byte) :
    (decodeArgs code args).all Safety.isRequest = true := by
  unfold decodeArgs
  by_cases h7 : code = 0x07
  · rw [if_pos h7]; split <;> rfl
  rw [if_neg h7]
  by_cases h8 : code = 0x08
  · rw [if_pos h8]; split <;> rfl
  rw [if_neg h8]
  by_cases h9 : code = 0x09
  · rw [if_pos h9]; rfl
  rw [if_neg h9]
  by_cases hA : code = 0x0A
  · rw [if_pos hA]; rfl
  rw [if_neg hA]
  by_cases hB : code = 0x0B
  · rw [if_pos hB]
    split
    · split
      · rfl
      · split <;> rfl
    · rfl
  rw [if_neg hB]
  by_cases hG : code = 0x12
  · rw [if_pos hG]
    split
    · split <;> rfl
    · rfl
  rw [if_neg hG]
  split
  · exact decodeBare_all_isRequest code
  · rfl

/-- What stands at the host port is always read as a request, never as a part of one (30_encoding.md R71, R84). -/
theorem decodeRequest_isRequest (bytes : List Byte) : Safety.isRequest (decodeRequest bytes) = true := by
  cases bytes with
  | nil => rfl
  | cons code args =>
    have h := decodeArgs_all_isRequest code args
    show Safety.isRequest ((decodeArgs code args).getD _) = true
    cases hd : decodeArgs code args with
    | none => rfl
    | some i => rw [hd] at h; exact h

end Sys2Proof
end

