-- ==== Sys2Proof/Laws/Ends.lean ====
section
/-! SUPPORT. All the ways an instruction can end, said once for all 34: the statements about every instruction are read
off `exec_ends` without unfolding a body. -/

namespace Sys2Proof.Machine

open Sys2Proof.Safety

/-- The instruction is turned away as no request, whatever the lifecycle but `Faulted` (30_encoding.md R84). -/
def isIllegal : Instr → Bool
  | .illegalRequest _ => true
  | .defineCustomGlyph _ pattern => !decide (pattern.length = 8)
  | _ => false

/-- The instruction is one of the two backlight toggles. -/
def isToggle : Instr → Bool
  | .backlightOn | .backlightOff => true
  | _ => false

/-- The instruction's checks of its arguments and of the geometry pass (42_operations.md R149, R152, R159, R160). -/
def Usable (i : Instr) (s : State) : Prop :=
  match i with
  | .setCursor _ row => row.toNat < s.rows.toNat ∧ ∃ offsets, RowTable s.rows offsets
  | .printWrapped text => text = [] ∨ (s.cols ≠ 0 ∧ ∃ offsets, RowTable s.rows offsets)
  | .nextLine => s.rows ≠ 1 ∧ ∃ offsets, RowTable s.rows offsets
  | .defineCustomGlyph slot _ => slot.toNat ≤ 7
  | _ => True

/-- The lifecycle allows the instruction (R141, 90_conflicts.md C8). -/
def Allowed (i : Instr) (s : State) : Prop :=
  if isRequest i = true ∧ i ≠ .init then s.lifecycle = .ready else Alive s

/-- The row offsets of the state's geometry, or none. -/
def offsetsOf (s : State) : List Byte := (rowOffsets s.rows).getD []

/-- The events of an instruction whose transactions are all answered `ok`, where it is usable. -/
def instrEvents (i : Instr) (s : State) : List Event :=
  match i with
  | .init => initEvents s.backlight s.rows
  | .displayOn => sendEvents s.backlight (dispCtlByte (withDisplayOn true s.displayControl)) false
  | .displayOff => sendEvents s.backlight (dispCtlByte (withDisplayOn false s.displayControl)) false
  | .backlightOn => [.tx (lightImage true) .ok]
  | .backlightOff => [.tx (lightImage false) .ok]
  | .clear => sendEvents s.backlight 0x01 false ++ [.wait 2000]
  | .setCursor col row => sendEvents s.backlight (cellCommand (offsetsOf s) col.toNat row.toNat) false
  | .print ch => sendEvents s.backlight ch true
  | .printText text => dataEvents s.backlight text
  | .printWrapped text => wrappedEvents s.backlight s.cols s.rows (offsetsOf s) 0 text
  | .autoscroll on => sendEvents s.backlight (entryByte (withAutoscroll on s.displayMode)) false
  | .scrollLeft => sendEvents s.backlight 0x18 false
  | .scrollRight => sendEvents s.backlight 0x1C false
  | .textDirectionLeftToRight => sendEvents s.backlight (entryByte (withLeftDirection true s.displayMode)) false
  | .textDirectionRightToLeft => sendEvents s.backlight (entryByte (withLeftDirection false s.displayMode)) false
  | .home => sendEvents s.backlight 0x02 false ++ [.wait 2000]
  | .nextLine => sendEvents s.backlight (cellCommand (offsetsOf s) 0 (lineAfter s.currentLine s.rows).toNat) false
  | .defineCustomGlyph slot pattern =>
    sendEvents s.backlight (BitVec.ofNat 8 (64 + 8 * slot.toNat)) false ++ dataEvents s.backlight pattern
  | .illegalRequest _ => []
  | .lcdClear => sendEvents s.backlight 0x01 false ++ [.wait 2000]
  | .lcdHome => sendEvents s.backlight 0x02 false ++ [.wait 2000]
  | .lcdEntry dir auto => sendEvents s.backlight (entryByte (maskIf dir flagID ||| maskIf auto flagS)) false
  | .lcdDispCtl disp cursor blink =>
    sendEvents s.backlight (dispCtlByte (maskIf disp flagD ||| maskIf cursor flagC ||| maskIf blink flagB)) false
  | .lcdShift move right => sendEvents s.backlight (shiftByte move right) false
  | .lcdFuncSet eight twoLine font => sendEvents s.backlight (funcSetByte eight twoLine font) false
  | .lcdSetCgram slot => sendEvents s.backlight (setCgramByte (slot.zeroExtend 8)) false
  | .lcdSetDdram addr => sendEvents s.backlight (setDdramByte (addr.zeroExtend 8)) false
  | .lcdData b => sendEvents s.backlight b true
  | .rawNibble3 => nibbleEvents (0x30 ||| lightImage s.backlight)
  | .rawNibble2 => nibbleEvents (0x20 ||| lightImage s.backlight)
  | .frameEnHigh nibble light rs => [.tx (frame light (nibbleData nibble) rs true) .ok]
  | .frameEnLow nibble light rs => [.tx (frame light (nibbleData nibble) rs false) .ok]
  | .frameRawLatch light => [.tx (lightImage light) .ok]
  | .tx v => [.tx v .ok]

/-- The state with the fields an instruction has written when its transaction `k` fails. -/
def atFailure (i : Instr) (s : State) (k : Nat) : State :=
  match i with
  | .init => { s with
      lifecycle := .uninitialized
      displayControl := if 13 ≤ k then 0x04 else s.displayControl
      currentLine := if 21 ≤ k then 0 else s.currentLine
      displayMode := if 21 ≤ k then 0x02 else s.displayMode }
  | .displayOn => { s with displayControl := withDisplayOn true s.displayControl }
  | .displayOff => { s with displayControl := withDisplayOn false s.displayControl }
  | .backlightOn => { s with backlight := true }
  | .backlightOff => { s with backlight := false }
  | .printWrapped _ => { s with currentLine := wrappedLine s k }
  | .autoscroll on => { s with displayMode := withAutoscroll on s.displayMode }
  | .textDirectionLeftToRight => { s with displayMode := withLeftDirection true s.displayMode }
  | .textDirectionRightToLeft => { s with displayMode := withLeftDirection false s.displayMode }
  | .nextLine => { s with currentLine := lineAfter s.currentLine s.rows }
  | _ => s

/-- The state with the fields an instruction has written when all has gone well. -/
def atEnd (i : Instr) (s : State) : State :=
  match i with
  | .init => { s with
      lifecycle := .ready, displayControl := 0x04, displayMode := 0x02, currentLine := 0, coherent := true }
  | .displayOn => { s with displayControl := withDisplayOn true s.displayControl }
  | .displayOff => { s with displayControl := withDisplayOn false s.displayControl }
  | .backlightOn => { s with backlight := true }
  | .backlightOff => { s with backlight := false }
  | .clear => { s with currentLine := 0 }
  | .setCursor _ row => { s with currentLine := row }
  | .printWrapped text => { s with
      currentLine := if text = [] then s.currentLine else BitVec.ofNat 8 (cellRow s.cols s.rows (text.length - 1)) }
  | .autoscroll on => { s with displayMode := withAutoscroll on s.displayMode }
  | .textDirectionLeftToRight => { s with displayMode := withLeftDirection true s.displayMode }
  | .textDirectionRightToLeft => { s with displayMode := withLeftDirection false s.displayMode }
  | .nextLine => { s with currentLine := lineAfter s.currentLine s.rows }
  | _ => s

/-- The end of an instruction whose events have all gone well: a request returns `Ok`, a part only goes on. -/
def finish (i : Instr) (s : State) : State := if isRequest i = true then returned .ok s else s

/-- The end of an instruction at a failed transaction (00_scope.md R12). -/
def failWith (i : Instr) (s : State) : State :=
  if isToggle i = true then faultedWith .backlightBusAbort s else busFailed s

/-- The next states an instruction can end in. -/
inductive Ends (i : Instr) (s : State) : State → Prop
  /-- turned away as no request -/
  | illegal : isIllegal i = true → Alive s → Ends i s (faultedWith .illegalRequest s)
  /-- not initialized -/
  | notReady : isIllegal i = false → isRequest i = true → i ≠ .init → s.lifecycle = .uninitialized →
      Ends i s (faultedWith .notReady s)
  /-- a check of arguments or geometry failed: no event -/
  | error (code : ErrorCode) (line : Byte) : isIllegal i = false → isRequest i = true → i ≠ .init →
      s.lifecycle = .ready → ¬ Usable i s → code ≠ .busFailure →
      line = s.currentLine ∨ (i = .nextLine ∧ line = lineAfter s.currentLine s.rows) →
      Ends i s (returned (.err code) { s with currentLine := line })
  /-- printWrapped with no columns -/
  | divide (text : List Byte) : i = .printWrapped text → s.lifecycle = .ready → ¬ Usable i s → s.cols = 0 →
      Ends i s (faultedWith .divideByZero s)
  /-- all transactions answered `ok` -/
  | done : isIllegal i = false → Allowed i s → Usable i s → BusOk (txCount (instrEvents i s)) s →
      Ends i s (finish i (afterOk (instrEvents i s) (atEnd i s)))
  /-- transaction `k` answered `fail` -/
  | fails (k : Nat) (p : Byte) : isIllegal i = false → Allowed i s → Usable i s →
      k < txCount (instrEvents i s) → BusFailsAt k s → p ∈ portsAfter (failedAt k (instrEvents i s)) s.port →
      Ends i s (failWith i (emitted (failedAt k (instrEvents i s)) p (atFailure i s k)))

/-- A request other than init, once its body is known to perform events and write fields. -/
theorem ends_of_performsWith {i : Instr} {body : State → Flow} {s t : State} {mid : Nat → State → State}
    {fin : State → State} (hi : isIllegal i = false) (hr : isRequest i = true) (hn : i ≠ .init)
    (htog : isToggle i = false) (hl : s.lifecycle = .ready) (hu : Usable i s)
    (h : PerformsWith (body (loadSequence s)) (loadSequence s) (instrEvents i s) mid fin)
    (hfin : fin (loadSequence s) = loadSequence (atEnd i s))
    (hmid : ∀ k < txCount (instrEvents i s), mid k (loadSequence s) = loadSequence (atFailure i s k))
    (ht : runRequest body s = .next t) : Ends i s t := by
  have ha : Allowed i s := by simp [Allowed, hr, hn, hl]
  have hrun := runRequest_performsWith hl h
  rcases busOk_or_failsAt (txCount (instrEvents i s)) s with hb | ⟨k, hk, hf⟩
  · have h1 := hrun.1 hb
    rw [ht, hfin] at h1
    injection h1 with h1
    rw [h1]
    have h2 := Ends.done hi ha hu hb
    rw [finish, if_pos hr] at h2
    exact h2
  · obtain ⟨p, hp, h1⟩ := hrun.2 k hk hf
    rw [(h.midUpdate k).port] at hp
    rw [ht, hmid k hk] at h1
    injection h1 with h1
    rw [h1]
    have h2 := Ends.fails k p hi ha hu hk hf hp
    rw [failWith, htog, if_neg Bool.false_ne_true] at h2
    exact h2

/-- A request whose body performs events and writes fields before them. -/
theorem ends_of_setter {i : Instr} {body : State → Flow} {s t : State} {u : State → State}
    (hi : isIllegal i = false) (hr : isRequest i = true) (hn : i ≠ .init) (htog : isToggle i = false)
    (hus : ∀ s, Usable i s) (hu : FieldUpdate u)
    (h : Performs (body (loadSequence s)) (u (loadSequence s)) (instrEvents i s))
    (hfin : u (loadSequence s) = loadSequence (atEnd i s))
    (hmid : ∀ k, u (loadSequence s) = loadSequence (atFailure i s k))
    (hx : isRequest i = true → s.lifecycle = .uninitialized → Ends i s (faultedWith .notReady s))
    (ht : runRequest body s = .next t) : Ends i s t := by
  rcases runRequest_next ht with ⟨hl, rfl⟩ | ⟨hl, _⟩
  · exact hx hr hl
  · exact ends_of_performsWith hi hr hn htog hl (hus s) (h.withBefore hu) hfin (fun k _ => hmid k) ht

/-- A part. -/
theorem ends_of_part {i : Instr} {body : State → Flow} {s t : State} (hi : isIllegal i = false)
    (hr : isRequest i = false) (htog : isToggle i = false) (hus : Usable i s)
    (h : Performs (body s) s (instrEvents i s)) (hend : atEnd i s = s) (hmid : ∀ k, atFailure i s k = s)
    (ht : runPart body s = .next t) : Ends i s t := by
  have hs : Alive s := (runPart_next ht).1
  have ha : Allowed i s := by simp [Allowed, hr, hs]
  have hp := runPart_sendsPart hs h
  rcases busOk_or_failsAt (txCount (instrEvents i s)) s with hb | ⟨k, hk, hf⟩
  · have h1 := hp.1 hb
    rw [ht] at h1
    injection h1 with h1
    have h2 := Ends.done hi ha hus hb
    rw [hend, finish, hr, if_neg Bool.false_ne_true] at h2
    rw [h1]; exact h2
  · obtain ⟨p, hpp, h1⟩ := hp.2 k hk hf
    rw [ht] at h1
    injection h1 with h1
    have h2 := Ends.fails k p hi ha hus hk hf hpp
    rw [hmid, failWith, htog, if_neg Bool.false_ne_true] at h2
    rw [h1]; exact h2

/-- A backlight toggle (42_operations.md R146, R147). -/
theorem ends_of_toggle {i : Instr} (on : Bool) {s t : State} (hi : i = if on then .backlightOn else .backlightOff)
    (ht : runRequest (backlightBody on) s = .next t) : Ends i s t := by
  have hill : isIllegal i = false := by subst hi; cases on <;> rfl
  have hreq : isRequest i = true := by subst hi; cases on <;> rfl
  have hini : i ≠ .init := by subst hi; cases on <;> simp
  have htog : isToggle i = true := by subst hi; cases on <;> rfl
  have hev : instrEvents i s = [.tx (lightImage on) .ok] := by subst hi; cases on <;> rfl
  have hend : atEnd i s = { s with backlight := on } := by subst hi; cases on <;> rfl
  have hfl : ∀ k, atFailure i s k = { s with backlight := on } := by subst hi; cases on <;> exact fun _ => rfl
  have hus : Usable i s := by subst hi; cases on <;> trivial
  rcases runRequest_next ht with ⟨hl, rfl⟩ | ⟨hl, rfl⟩
  · exact .notReady hill hreq hini hl
  · have ha : Allowed i s := by simp [Allowed, hreq, hini, hl]
    have hp : Performs (rawLatch (loadSequence { s with backlight := on })) (loadSequence { s with backlight := on })
        (instrEvents i s) := by rw [hev]; exact rawLatch_performs _
    have hbody : backlightBody on (loadSequence s) =
        abortOnFailure (rawLatch (loadSequence { s with backlight := on })) := rfl
    rw [hbody]
    rcases busOk_or_failsAt (txCount (instrEvents i s)) s with hb | ⟨k, hk, hf⟩
    · have h2 := Ends.done hill ha hus hb
      rw [finish, if_pos hreq, hend] at h2
      rw [hp.goes hb]
      exact h2
    · obtain ⟨p, hpp, h1⟩ := hp.raises k hk hf
      have h2 := Ends.fails k p hill ha hus hk hf hpp
      rw [failWith, if_pos htog, hfl] at h2
      rw [h1]
      exact h2

/-- `init` (R143). -/
theorem ends_of_init {s t : State} (ht : exec .init s = .next t) : Ends .init s t := by
  obtain ⟨hs, rfl⟩ := runInit_next ht
  have ha : Allowed .init s := by simpa [Allowed] using hs
  obtain ⟨mid, hp, hmid⟩ := initBody_performsWith (loadSequence s)
  rcases busOk_or_failsAt (txCount (instrEvents .init s)) s with hb | ⟨k, hk, hf⟩
  · have h2 := Ends.done (i := .init) rfl ha trivial hb
    rw [hp.goes hb]
    exact h2
  · obtain ⟨p, hpp, h1⟩ := hp.raises k hk hf
    have h2 := Ends.fails (i := .init) k p rfl ha trivial hk hf hpp
    rw [hmid k (by simpa [instrEvents] using hk)] at h1
    rw [h1]
    exact h2

theorem usable_setCursor {col row : Byte} {s : State} :
    Usable (.setCursor col row) s ↔ row.toNat < s.rows.toNat ∧ ∃ offsets, RowTable s.rows offsets := Iff.rfl

theorem not_rowTable_of_unsupported {rows : Byte} (h : UnsupportedRows rows) : ¬ ∃ offsets, RowTable rows offsets := by
  rintro ⟨offsets, ht⟩
  have := rowOffsets_of_unsupported h
  rw [rowOffsets_of_rowTable ht] at this
  cases this

theorem offsetsOf_rowTable {s : State} {offsets : List Byte} (h : RowTable s.rows offsets) : offsetsOf s = offsets := by
  simp [offsetsOf, rowOffsets_of_rowTable h]

/-- setCursor, also as nextLine and printWrapped use it, checks its row and then the row count. -/
theorem setCursorBody_unusable (col row : Byte) (s : State)
    (h : ¬ (row.toNat < s.rows.toNat ∧ ∃ offsets, RowTable s.rows offsets)) :
    ∃ code, code ≠ .busFailure ∧ setCursorBody col row s = .raise code s := by
  by_cases hr : row.toNat < s.rows.toNat
  · rcases rowTable_or_unsupported s.rows with ht | hu
    · exact absurd ⟨hr, ht⟩ h
    · exact ⟨_, by decide, setCursorBody_unsupported col row s hr hu⟩
  · exact ⟨_, by decide, setCursorBody_outOfRange col row s (Nat.le_of_not_lt hr)⟩

theorem ends_of_setCursor {col row : Byte} {s t : State} (ht : exec (.setCursor col row) s = .next t) :
    Ends (.setCursor col row) s t := by
  rcases runRequest_next ht with ⟨hl, rfl⟩ | ⟨hl, heq⟩
  · exact .notReady rfl rfl (by simp) hl
  · by_cases hu : Usable (.setCursor col row) s
    · obtain ⟨hr, offsets, hT⟩ := hu
      have hp := setCursorBody_performsWith col row (loadSequence s) hr hT
      refine ends_of_performsWith (body := setCursorBody col row) rfl rfl (by simp) rfl hl ⟨hr, offsets, hT⟩
        (mid := fun _ => id) (fin := fun s => { s with currentLine := row }) ?_ rfl (fun _ _ => rfl) ht
      have : instrEvents (.setCursor col row) s =
          sendEvents s.backlight (cellCommand offsets col.toNat row.toNat) false := by
        simp [instrEvents, offsetsOf_rowTable hT]
      rw [this]; exact hp
    · obtain ⟨code, hc, hb⟩ := setCursorBody_unusable col row (loadSequence s) hu
      rw [heq, hb]
      have h2 := Ends.error (i := .setCursor col row) code s.currentLine rfl rfl (by simp) hl hu hc (.inl rfl)
      simp only [endRequest, returnResult_err _ _ hc]
      exact h2

theorem ends_of_nextLine {s t : State} (ht : exec .nextLine s = .next t) : Ends .nextLine s t := by
  rcases runRequest_next ht with ⟨hl, rfl⟩ | ⟨hl, heq⟩
  · exact .notReady rfl rfl (by simp) hl
  · have hbody : s.rows ≠ 1 → nextLineBody (loadSequence s) = setCursorBody 0 (lineAfter s.currentLine s.rows)
        (loadSequence { s with currentLine := lineAfter s.currentLine s.rows }) := by
      exact fun h => if_neg h
    by_cases h1 : s.rows = 1
    · have h2 := Ends.error (i := .nextLine) .nextLineUnsupported s.currentLine rfl rfl (by simp) hl
        (fun h => h.1 h1) (by decide) (.inl rfl)
      have : nextLineBody (loadSequence s) = .raise .nextLineUnsupported (loadSequence s) := by
        exact if_pos h1
      rw [heq, this]
      exact h2
    · by_cases hT : ∃ offsets, RowTable s.rows offsets
      · obtain ⟨offsets, hT⟩ := hT
        have h0 : s.rows ≠ 0 := fun h => by have := rowTable_pos hT; simp [h] at this
        have hp := setCursorBody_performsWith 0 (lineAfter s.currentLine s.rows)
          (loadSequence { s with currentLine := lineAfter s.currentLine s.rows }) (lineAfter_lt _ _ h0) hT
        rw [← hbody h1] at hp
        have hev : instrEvents .nextLine s =
            sendEvents s.backlight (cellCommand offsets 0 (lineAfter s.currentLine s.rows).toNat) false := by
          simp [instrEvents, offsetsOf_rowTable hT]
        have hp' : PerformsWith (nextLineBody (loadSequence s)) (loadSequence s) (instrEvents .nextLine s)
            (fun _ s' => { s' with currentLine := lineAfter s.currentLine s.rows })
            (fun s' => { s' with currentLine := lineAfter s.currentLine s.rows }) := by
          rw [hev]
          exact ⟨hp.allOk, fun _ => fieldUpdate_setCurrentLine _, fieldUpdate_setCurrentLine _, hp.goes, hp.raises⟩
        exact ends_of_performsWith (body := nextLineBody) rfl rfl (by simp) rfl hl ⟨h1, offsets, hT⟩ hp' rfl
          (fun _ _ => rfl) ht
      · obtain ⟨code, hc, hb⟩ := setCursorBody_unusable 0 (lineAfter s.currentLine s.rows)
          (loadSequence { s with currentLine := lineAfter s.currentLine s.rows }) (fun h => hT h.2)
        rw [heq, hbody h1, hb]
        have h2 := Ends.error (i := .nextLine) code (lineAfter s.currentLine s.rows) rfl rfl (by simp) hl
          (fun h => hT h.2) hc (.inr ⟨rfl, rfl⟩)
        simp only [endRequest, returnResult_err _ _ hc]
        exact h2

theorem ends_of_printWrapped {text : List Byte} {s t : State} (ht : exec (.printWrapped text) s = .next t) :
    Ends (.printWrapped text) s t := by
  rcases runRequest_next ht with ⟨hl, rfl⟩ | ⟨hl, heq⟩
  · exact .notReady rfl rfl (by simp) hl
  · cases text with
    | nil =>
      have hp : Performs (printWrappedFrom [] 0 (loadSequence s)) (loadSequence s) [] := perform_performs [] _
      refine ends_of_performsWith (body := printWrappedFrom [] 0) (mid := fun _ => id) (fin := id) rfl rfl (by simp) rfl hl
        (.inl rfl) hp.with ?_ ?_ ht
      · rfl
      · exact fun k hk => absurd hk (Nat.not_lt_zero k)
    | cons ch rest =>
      by_cases hc : s.cols = 0
      · have hu : ¬ Usable (.printWrapped (ch :: rest)) s := by
          rintro (h | h)
          · cases h
          · exact h.1 hc
        have h2 := Ends.divide (i := .printWrapped (ch :: rest)) (ch :: rest) rfl hl hu hc
        have : printWrappedFrom (ch :: rest) 0 (loadSequence s) = .abort .divideByZero (loadSequence s) := by
          rw [printWrappedFrom, if_pos (by exact hc)]
        rw [heq, this]
        exact h2
      · by_cases hT : ∃ offsets, RowTable s.rows offsets
        · obtain ⟨offsets, hT⟩ := hT
          obtain ⟨mid, fin, hp, hfin, hmid⟩ := printWrappedFrom_performsWith offsets (ch :: rest) 0 (loadSequence s) hT hc
          have hev : instrEvents (.printWrapped (ch :: rest)) s =
              wrappedEvents s.backlight s.cols s.rows offsets 0 (ch :: rest) := by
            simp [instrEvents, offsetsOf_rowTable hT]
          refine ends_of_performsWith (body := printWrappedFrom (ch :: rest) 0) (mid := mid) (fin := fin) rfl rfl
            (by simp) rfl hl (.inr ⟨hc, offsets, hT⟩) ?_ ?_ ?_ ht
          · rw [hev]; exact hp
          · rw [hfin]
            simp only [Nat.zero_add]
            rfl
          · intro k hk
            rw [hev, txCount_wrappedEvents] at hk
            rw [hmid k hk]
            simp only [Nat.zero_add]
            rfl
        · obtain ⟨code, hcode, hb⟩ := setCursorBody_unusable (wrapCol s.cols 0) (wrapRow s.cols s.rows 0)
            (loadSequence s) (fun h => hT h.2)
          have : printWrappedFrom (ch :: rest) 0 (loadSequence s) = .raise code (loadSequence s) := by
            rw [printWrappedFrom, if_neg (by exact hc)]
            show (setCursorBody (wrapCol s.cols 0) (wrapRow s.cols s.rows 0) (loadSequence s)).andThen _ = _
            rw [hb]
            rfl
          have h2 := Ends.error (i := .printWrapped (ch :: rest)) code s.currentLine rfl rfl (by simp) hl
            (by rintro (h | h); exacts [(nomatch h), hT h.2]) hcode (.inl rfl)
          rw [heq, this]
          simp only [endRequest, returnResult_err _ _ hcode]
          exact h2

theorem ends_of_defineCustomGlyph {slot : Byte} {pattern : List Byte} {s t : State}
    (ht : exec (.defineCustomGlyph slot pattern) s = .next t) : Ends (.defineCustomGlyph slot pattern) s t := by
  by_cases hlen : pattern.length = 8
  · have hi : isIllegal (.defineCustomGlyph slot pattern) = false := by simp [isIllegal, hlen]
    have hrun : runRequest (defineCustomGlyphBody slot pattern) s = .next t := by
      simpa [exec, execDefineCustomGlyph, glyphBytes, hlen] using ht
    rcases runRequest_next hrun with ⟨hl, rfl⟩ | ⟨hl, heq⟩
    · exact .notReady hi rfl (by simp) hl
    · by_cases hu : slot.toNat ≤ 7
      · exact ends_of_performsWith (body := defineCustomGlyphBody slot pattern) hi rfl (by simp) rfl hl hu
          (defineCustomGlyphBody_performs slot pattern (loadSequence s) hu).with rfl (fun _ _ => rfl) hrun
      · rw [heq, defineCustomGlyphBody_outOfRange slot pattern _ (by omega)]
        have h2 := Ends.error (i := .defineCustomGlyph slot pattern) .glyphSlotOutOfRange s.currentLine hi rfl (by simp)
          hl hu (by decide) (.inl rfl)
        exact h2
  · have hi : isIllegal (.defineCustomGlyph slot pattern) = true := by simp [isIllegal, hlen]
    have hrun : runIllegal s = .next t := by
      simpa [exec, execDefineCustomGlyph, glyphBytes, hlen] using ht
    obtain ⟨hs, rfl⟩ := runIllegal_next hrun
    exact .illegal hi hs

theorem ends_of_clear {s t : State} (ht : exec .clear s = .next t) : Ends .clear s t := by
  rcases runRequest_next ht with ⟨hl, rfl⟩ | ⟨hl, _⟩
  · exact .notReady rfl rfl (by simp) hl
  · exact ends_of_performsWith (body := clearBody) (i := .clear) rfl rfl (by simp) rfl hl trivial
      ((fmtClear_performs (loadSequence s)).with.thenWrite (fieldUpdate_setCurrentLine 0)) rfl (fun _ _ => rfl) ht

/-- A request with no checks that writes no field. -/
theorem ends_of_plain {i : Instr} {body : State → Flow} {s t : State} (hi : isIllegal i = false)
    (hr : isRequest i = true) (hn : i ≠ .init) (htog : isToggle i = false) (hus : Usable i s)
    (h : Performs (body (loadSequence s)) (loadSequence s) (instrEvents i s)) (hend : atEnd i s = s)
    (hmid : ∀ k, atFailure i s k = s) (ht : runRequest body s = .next t) : Ends i s t := by
  rcases runRequest_next ht with ⟨hl, rfl⟩ | ⟨hl, _⟩
  · exact .notReady hi hr hn hl
  · exact ends_of_performsWith hi hr hn htog hl hus h.with (by rw [hend]; rfl) (fun k _ => by rw [hmid]; rfl) ht

theorem ends_of_setDisplayControl {i : Instr} (on : Bool) {s t : State}
    (hi : i = if on then .displayOn else .displayOff)
    (ht : runRequest (setDisplayControlBody (withDisplayOn on)) s = .next t) : Ends i s t := by
  have hp := fmtDispCtl_performs { loadSequence s with displayControl := withDisplayOn on s.displayControl }
  cases on <;> subst hi <;>
    exact ends_of_setter (u := fun s' => { s' with displayControl := withDisplayOn _ s.displayControl }) rfl rfl
      (by simp) rfl (fun _ => trivial) (fieldUpdate_setDisplayControl _) hp rfl (fun _ => rfl)
      (fun _ hl => .notReady rfl rfl (by simp) hl) ht

theorem ends_of_setDisplayMode {i : Instr} (f : Byte → Byte) {s t : State} (hi : isIllegal i = false)
    (hr : isRequest i = true) (hn : i ≠ .init) (htog : isToggle i = false) (hus : ∀ s, Usable i s)
    (hev : instrEvents i s = sendEvents s.backlight (entryByte (f s.displayMode)) false)
    (hend : atEnd i s = { s with displayMode := f s.displayMode })
    (hmid : ∀ k, atFailure i s k = { s with displayMode := f s.displayMode })
    (ht : runRequest (setDisplayModeBody f) s = .next t) : Ends i s t := by
  have hp := fmtEntry_performs { loadSequence s with displayMode := f s.displayMode }
  refine ends_of_setter (u := fun s' => { s' with displayMode := f s.displayMode }) hi hr hn htog hus
    (fieldUpdate_setDisplayMode _) ?_ (by rw [hend]; rfl) (fun k => by rw [hmid]; rfl)
    (fun _ hl => .notReady hi hr hn hl) ht
  rw [hev]
  exact hp

/-- Every next state of every instruction is one of the listed ends. -/
theorem exec_ends {i : Instr} {s t : State} (ht : exec i s = .next t) : Ends i s t := by
  cases i with
  | init => exact ends_of_init ht
  | displayOn => exact ends_of_setDisplayControl true rfl ht
  | displayOff => exact ends_of_setDisplayControl false rfl ht
  | backlightOn => exact ends_of_toggle true rfl ht
  | backlightOff => exact ends_of_toggle false rfl ht
  | clear => exact ends_of_clear ht
  | setCursor col row => exact ends_of_setCursor ht
  | print ch =>
    exact ends_of_plain rfl rfl (by simp) rfl trivial (fmtData_performs ch (loadSequence s)) rfl (fun _ => rfl) ht
  | printText text =>
    exact ends_of_plain rfl rfl (by simp) rfl trivial (dataBytes_performs text (loadSequence s)) rfl (fun _ => rfl) ht
  | printWrapped text => exact ends_of_printWrapped ht
  | autoscroll on =>
    exact ends_of_setDisplayMode (withAutoscroll on) rfl rfl (by simp) rfl (fun _ => trivial) rfl rfl (fun _ => rfl) ht
  | scrollLeft =>
    exact ends_of_plain rfl rfl (by simp) rfl trivial (fmtShift_performs false (loadSequence s)) rfl (fun _ => rfl) ht
  | scrollRight =>
    exact ends_of_plain rfl rfl (by simp) rfl trivial (fmtShift_performs true (loadSequence s)) rfl (fun _ => rfl) ht
  | textDirectionLeftToRight =>
    exact ends_of_setDisplayMode (withLeftDirection true) rfl rfl (by simp) rfl (fun _ => trivial) rfl rfl (fun _ => rfl)
      ht
  | textDirectionRightToLeft =>
    exact ends_of_setDisplayMode (withLeftDirection false) rfl rfl (by simp) rfl (fun _ => trivial) rfl rfl
      (fun _ => rfl) ht
  | home =>
    exact ends_of_plain rfl rfl (by simp) rfl trivial (fmtHome_performs (loadSequence s)) rfl (fun _ => rfl) ht
  | nextLine => exact ends_of_nextLine ht
  | defineCustomGlyph slot pattern => exact ends_of_defineCustomGlyph ht
  | illegalRequest bytes =>
    obtain ⟨hs, rfl⟩ := runIllegal_next ht
    exact .illegal rfl hs
  | lcdClear => exact ends_of_part rfl rfl rfl trivial (fmtClear_performs s) rfl (fun _ => rfl) ht
  | lcdHome => exact ends_of_part rfl rfl rfl trivial (fmtHome_performs s) rfl (fun _ => rfl) ht
  | lcdEntry dir auto => exact ends_of_part rfl rfl rfl trivial (send_performs _ _ s) rfl (fun _ => rfl) ht
  | lcdDispCtl disp cursor blink => exact ends_of_part rfl rfl rfl trivial (send_performs _ _ s) rfl (fun _ => rfl) ht
  | lcdShift move right => exact ends_of_part rfl rfl rfl trivial (send_performs _ _ s) rfl (fun _ => rfl) ht
  | lcdFuncSet eight twoLine font => exact ends_of_part rfl rfl rfl trivial (send_performs _ _ s) rfl (fun _ => rfl) ht
  | lcdSetCgram slot => exact ends_of_part rfl rfl rfl trivial (send_performs _ _ s) rfl (fun _ => rfl) ht
  | lcdSetDdram addr => exact ends_of_part rfl rfl rfl trivial (send_performs _ _ s) rfl (fun _ => rfl) ht
  | lcdData b => exact ends_of_part rfl rfl rfl trivial (send_performs _ _ s) rfl (fun _ => rfl) ht
  | rawNibble3 => exact ends_of_part rfl rfl rfl trivial (rawNibble3_performs s) rfl (fun _ => rfl) ht
  | rawNibble2 => exact ends_of_part rfl rfl rfl trivial (rawNibble2_performs s) rfl (fun _ => rfl) ht
  | frameEnHigh nibble light rs => exact ends_of_part rfl rfl rfl trivial (sendByte_performs _ s) rfl (fun _ => rfl) ht
  | frameEnLow nibble light rs => exact ends_of_part rfl rfl rfl trivial (sendByte_performs _ s) rfl (fun _ => rfl) ht
  | frameRawLatch light => exact ends_of_part rfl rfl rfl trivial (sendByte_performs _ s) rfl (fun _ => rfl) ht
  | tx v => exact ends_of_part rfl rfl rfl trivial (sendByte_performs _ s) rfl (fun _ => rfl) ht

/-- The all-`ok` events of every instruction hold no failed transaction. -/
theorem instrEvents_allOk (i : Instr) (s : State) (hu : Usable i s) : AllOk (instrEvents i s) := by
  have hn : ∀ f, AllOk (nibbleEvents f) := fun f => by simp [AllOk, nibbleEvents, isFail]
  have hs : ∀ b rs, AllOk (sendEvents s.backlight b rs) := fun b rs => allOk_append.mpr ⟨hn _, hn _⟩
  have hd : ∀ l, AllOk (dataEvents s.backlight l) := fun l => (dataBytes_performs l s).allOk
  have hw : ∀ t, AllOk [Event.wait t] := fun t => by simp [AllOk, isFail]
  have ht : ∀ v, AllOk [Event.tx v .ok] := fun v => by simp [AllOk, isFail]
  have hp : ∀ c r o text j, AllOk (wrappedEvents s.backlight c r o j text) := by
    intro c r o text
    induction text with
    | nil => intro j; simp [AllOk, wrappedEvents]
    | cons ch rest ih => exact fun j => allOk_append.mpr ⟨allOk_append.mpr ⟨hs _ _, hs _ _⟩, ih (j + 1)⟩
  cases i with
  | init => obtain ⟨_, h, _⟩ := initBody_performsWith s; exact h.allOk
  | clear | home | lcdClear | lcdHome => exact allOk_append.mpr ⟨hs _ _, hw _⟩
  | backlightOn | backlightOff | frameEnHigh | frameEnLow | frameRawLatch | tx => exact ht _
  | rawNibble3 | rawNibble2 => exact hn _
  | printText text => exact hd text
  | printWrapped text => exact hp _ _ _ _ _
  | defineCustomGlyph slot pattern => exact allOk_append.mpr ⟨hs _ _, hd _⟩
  | illegalRequest => simp [AllOk, instrEvents]
  | _ => exact hs _ _

theorem Allowed.alive {i : Instr} {s : State} (h : Allowed i s) : Alive s := by
  unfold Allowed at h
  split at h
  · exact fun r hr => by rw [hr] at h; cases h
  · exact h

/-- Only a block that is not faulted goes on to a next state (R204). -/
theorem Ends.alive {i : Instr} {s t : State} (h : Ends i s t) : Alive s := by
  cases h with
  | illegal _ hs => exact hs
  | notReady _ _ _ hl => exact fun r hr => by rw [hr] at hl; cases hl
  | error _ _ _ _ _ hl => exact fun r hr => by rw [hr] at hl; cases hl
  | divide _ _ hl => exact fun r hr => by rw [hr] at hl; cases hl
  | done _ ha => exact ha.alive
  | fails _ _ _ ha => exact ha.alive

/-- What is turned away is ill formed, or a record that is no request. -/
theorem isIllegal_cases {i : Instr} (h : isIllegal i = true) : i.wf = false ∨ ∃ bytes, i = .illegalRequest bytes := by
  unfold isIllegal at h
  split at h
  · exact .inr ⟨_, rfl⟩
  · exact .inl (by simpa [Instr.wf] using h)
  · cases h

/-- The events and the checks depend on the block's fields alone, not on the bus. -/
theorem instrEvents_answers (i : Instr) (s : State) (answers : List Answer) :
    instrEvents i { s with answers := answers } = instrEvents i s := by cases i <;> rfl

end Sys2Proof.Machine
end

