-- ==== Sys2Proof/Laws/Emitted.lean ====
section
/-! SUPPORT. What the events of an instruction look like: where they come from, and the shape of a request's. -/

namespace Sys2Proof.Machine

open Sys2Proof.Safety

/-- The events an ended instruction has added: none, all of its events, or those up to its failed transaction. -/
theorem Ends.trace {i : Instr} {s t : State} (h : Ends i s t) {evs : List Event} (ht : t.trace = s.trace ++ evs) :
    evs = [] ∨ (evs = instrEvents i s ∧ Usable i s) ∨
      ∃ k < txCount (instrEvents i s), evs = failedAt k (instrEvents i s) ∧ Usable i s := by
  have cancel : ∀ {a : List Event}, s.trace ++ a = s.trace ++ evs → evs = a := fun h => (List.append_cancel_left h).symm
  cases h with
  | illegal | notReady | divide | error => exact .inl (by simpa [faultedWith, returned] using ht)
  | done _ _ hu =>
    refine .inr (.inl ⟨cancel ?_, hu⟩)
    rw [← ht]
    cases i <;> rfl
  | fails k _ _ _ hu hk =>
    refine .inr (.inr ⟨k, hk, cancel ?_, hu⟩)
    rw [← ht]
    cases i <;> rfl

/-- The backlight value that a request's frames carry. -/
def lightOf (i : Instr) (s : State) : Bool :=
  match i with
  | .backlightOn => true
  | .backlightOff => false
  | _ => s.backlight

theorem sendEvents_allOk (light : Bool) (b : Byte) (rs : Bool) : AllOk (sendEvents light b rs) := by
  simp [AllOk, sendEvents, nibbleEvents, isFail]

theorem blocks_dataEvents (light : Bool) (bytes : List Byte) : Blocks light (dataEvents light bytes) := by
  induction bytes with
  | nil => exact .nil
  | cons b rest ih =>
    show Blocks light (sendEvents light b true ++ dataEvents light rest)
    exact (blocks_sendEvents _ _ _).append (sendEvents_allOk _ _ _) ih

theorem blocks_wrappedEvents (light : Bool) (cols rows : Byte) (offsets : List Byte) (text : List Byte) (i : Nat) :
    Blocks light (wrappedEvents light cols rows offsets i text) := by
  induction text generalizing i with
  | nil => exact .nil
  | cons ch rest ih =>
    refine ((blocks_sendEvents _ _ _).append (sendEvents_allOk _ _ _) (blocks_sendEvents _ _ _)).append ?_ (ih _)
    exact allOk_append.mpr ⟨sendEvents_allOk _ _ _, sendEvents_allOk _ _ _⟩

theorem blocks_initEvents (light : Bool) (rows : Byte) : Blocks light (initEvents light rows) := by
  have l3 : LowFrame light (0x30 ||| lightImage light) := by cases light <;> (unfold LowFrame lightImage; decide)
  have l2 : LowFrame light (0x20 ||| lightImage light) := by cases light <;> (unfold LowFrame lightImage; decide)
  unfold initEvents
  simp only [List.append_assoc]
  refine .wait (.latch (.wait (.nibble l3 (.wait (.nibble l3 (.wait (.nibble l3 (.wait (.nibble l2 ?_)))))))))
  refine (blocks_sendEvents _ _ _).append (sendEvents_allOk _ _ _) ?_
  refine (blocks_sendEvents _ _ _).append (sendEvents_allOk _ _ _) ?_
  refine (blocks_sendEvents _ _ _).append (sendEvents_allOk _ _ _) (.wait ?_)
  refine (blocks_sendEvents _ _ _).append (sendEvents_allOk _ _ _) ?_
  exact (blocks_sendEvents _ _ _).append (sendEvents_allOk _ _ _) (.wait .nil)

/-- A request's all-`ok` events are waits, raw latches and nibble frames with one backlight value. -/
theorem blocks_instrEvents (i : Instr) (s : State) (hr : isRequest i = true) : Blocks (lightOf i s) (instrEvents i s) := by
  cases i with
  | init => exact blocks_initEvents _ _
  | backlightOn | backlightOff => exact .latch .nil
  | clear | home => exact (blocks_sendEvents _ _ _).append (sendEvents_allOk _ _ _) (.wait .nil)
  | printText => exact blocks_dataEvents _ _
  | printWrapped => exact blocks_wrappedEvents _ _ _ _ _ _
  | illegalRequest => exact .nil
  | defineCustomGlyph => exact (blocks_sendEvents _ _ _).append (sendEvents_allOk _ _ _) (blocks_dataEvents _ _)
  | displayOn | displayOff | setCursor | print | autoscroll | scrollLeft | scrollRight | textDirectionLeftToRight
  | textDirectionRightToLeft | nextLine => exact blocks_sendEvents _ _ _
  | _ => cases hr

/-- So are the events it has made, whatever the bus answered. -/
theorem blocks_of_trace {i : Instr} {s t : State} {evs : List Event} (hr : isRequest i = true) (h : Ends i s t)
    (ht : t.trace = s.trace ++ evs) : Blocks (lightOf i s) evs := by
  rcases h.trace ht with rfl | ⟨rfl, _⟩ | ⟨k, _, rfl, hu⟩
  · exact .nil
  · exact blocks_instrEvents i s hr
  · exact (blocks_instrEvents i s hr).failedAt (instrEvents_allOk i s hu) k

/-- Every next state of a request has a trace that goes on from the one before. -/
theorem Ends.trace_exists {i : Instr} {s t : State} (h : Ends i s t) : ∃ evs, t.trace = s.trace ++ evs := by
  cases h with
  | illegal | notReady | divide | error => exact ⟨[], by simp [faultedWith, returned]⟩
  | done => exact ⟨instrEvents i s, by cases i <;> rfl⟩
  | fails k => exact ⟨failedAt k (instrEvents i s), by cases i <;> rfl⟩

/-- All that a step can do: nothing, or one request of the host port to its end (10_state.md R40). -/
theorem step_cases {s t : State} (h : step s = .next t) :
    t = s ∨ ∃ i rest, isRequest i = true ∧ Ends i { s with requests := rest } t := by
  unfold step at h
  split at h
  · cases h
  · cases h
    exact .inl rfl
  · next hf =>
    unfold fetch at hf
    split at hf <;> cases hf
    exact .inr ⟨_, _, decodeRequest_isRequest _, exec_ends h⟩

end Sys2Proof.Machine
end

