-- ==== Sys2Proof/Laws/Erase.lean ====
section
/-! SUPPORT. Two runs that start in states alike but for some fields: as long as the bus, the port and the frames do not
see those fields, the runs stay alike. -/

namespace Sys2Proof.Machine

open Sys2Proof.Safety

/-- The flow with a function applied to its state. -/
def Flow.map (u : State → State) : Flow → Flow
  | .go s => .go (u s)
  | .raise e s => .raise e (u s)
  | .abort r s => .abort r (u s)

/-- An erasure of fields that neither a transaction nor a wait depends on. -/
structure Erases (er : State → State) : Prop where
  transact : ∀ v s, er (transact v s) = er (transact v (er s))
  delay : ∀ t s, er (delay t s) = er (delay t (er s))
  answer : ∀ s, nextAnswer (er s) = nextAnswer s
  light : ∀ s, (er s).backlight = s.backlight

/-- Two flows that end alike but for the erased fields. -/
def SameUpTo (er : State → State) (f g : Flow) : Prop := f.map er = g.map er

/-- The fields without a value before init (10_state.md R36). -/
def eraseUnset (s : State) : State := { s with displayMode := 0, displayControl := 0, currentLine := 0 }

/-- The sequencer position and the results so far. -/
def eraseProgress (s : State) : State := { s with pc := .idle, results := [] }

theorem erases_eraseUnset : Erases eraseUnset := ⟨fun _ _ => rfl, fun _ _ => rfl, fun _ => rfl, fun _ => rfl⟩

theorem erases_eraseProgress : Erases eraseProgress := ⟨fun _ _ => rfl, fun _ _ => rfl, fun _ => rfl, fun _ => rfl⟩

variable {er : State → State}

theorem SameUpTo.andThen {f g : Flow} {k l : State → Flow} (h : SameUpTo er f g)
    (hk : ∀ s t, er s = er t → SameUpTo er (k s) (l t)) : SameUpTo er (f.andThen k) (g.andThen l) := by
  unfold SameUpTo at h ⊢
  cases f <;> cases g <;> simp only [Flow.map, Flow.go.injEq, Flow.raise.injEq, Flow.abort.injEq, reduceCtorEq] at h
  · exact hk _ _ h
  · obtain ⟨rfl, h⟩ := h
    simp only [Flow.andThen, Flow.map, h]
  · obtain ⟨rfl, h⟩ := h
    simp only [Flow.andThen, Flow.map, h]

theorem perform_sameUpTo (he : Erases er) (l : List MicroOp) {s t : State} (h : er s = er t) :
    SameUpTo er (perform l s) (perform l t) := by
  induction l generalizing s t with
  | nil => exact congrArg Flow.go h
  | cons x l ih =>
    cases x with
    | wait w => exact ih (by rw [he.delay, h, ← he.delay])
    | tx v =>
      have ha : nextAnswer s = nextAnswer t := by rw [← he.answer s, h, he.answer]
      have ht : er (transact v s) = er (transact v t) := by rw [he.transact, h, ← he.transact]
      simp only [perform, ha]
      split
      · exact ih ht
      · exact congrArg (Flow.raise .busFailure) ht

theorem send_sameUpTo (he : Erases er) (b : Byte) (rs : Bool) {s t : State} (h : er s = er t) :
    SameUpTo er (send b rs s) (send b rs t) := by
  have hl : s.backlight = t.backlight := by rw [← he.light s, h, he.light]
  unfold send
  rw [hl]
  exact perform_sameUpTo he _ h

theorem waitFor_sameUpTo (he : Erases er) (w : Nat) {s t : State} (h : er s = er t) :
    SameUpTo er (waitFor w s) (waitFor w t) := perform_sameUpTo he _ h

theorem rawLatch_sameUpTo (he : Erases er) {s t : State} (h : er s = er t) :
    SameUpTo er (rawLatch s) (rawLatch t) := by
  have hl : s.backlight = t.backlight := by rw [← he.light s, h, he.light]
  unfold rawLatch
  rw [hl]
  exact perform_sameUpTo he _ h

theorem rawNibble_sameUpTo (he : Erases er) (n : Nibble) {s t : State} (h : er s = er t) :
    SameUpTo er (rawNibble n s) (rawNibble n t) := by
  have hl : s.backlight = t.backlight := by rw [← he.light s, h, he.light]
  unfold rawNibble writeNibble
  rw [hl]
  exact perform_sameUpTo he _ h

theorem dataBytes_sameUpTo (he : Erases er) (bytes : List Byte) {s t : State} (h : er s = er t) :
    SameUpTo er (dataBytes bytes s) (dataBytes bytes t) := by
  induction bytes generalizing s t with
  | nil => exact congrArg Flow.go h
  | cons b rest ih => exact (send_sameUpTo he b true h).andThen fun _ _ h => ih h

theorem resetNibbles_sameUpTo (he : Erases er) {s t : State} (h : er s = er t) :
    SameUpTo er (resetNibbles s) (resetNibbles t) := by
  have nib := fun n => fun s t (h : er s = er t) => rawNibble_sameUpTo he n h
  have wait := fun w => fun s t (h : er s = er t) => waitFor_sameUpTo he w h
  unfold resetNibbles
  exact ((((((((waitFor_sameUpTo he _ h).andThen fun _ _ h => rawLatch_sameUpTo he h).andThen (wait _)).andThen
    (nib _)).andThen (wait _)).andThen (nib _)).andThen (wait _)).andThen (nib _)).andThen
    fun s t h => (wait _ s t h).andThen (nib _)

end Sys2Proof.Machine
end

