-- ==== Sys2Proof/Laws/PerInstr.lean ====
section
/-! SUPPORT. Statements made for every instruction as syntax: a record at the host port is legal exactly for a request,
and no part of a request is encoded as a record (30_encoding.md R70 to R73, R84). -/

namespace Sys2Proof.Laws.HostRecord

/-- A well-formed instruction that the host issues is encoded as a record, a legal one unless it is ILLEGAL_REQUEST; an
instruction of a lower layer is not encoded as a record. -/
def Statement (i : Instr) : Prop :=
  i.wf = true →
    (Safety.isRequest i = true → (encode i).1 = .request ∧
      (legalRequest (encode i).2 = true ↔ ∀ bytes, i ≠ .illegalRequest bytes)) ∧
    (Safety.isRequest i = false → (encode i).1 ≠ .request)

/-- A request with a legal record. -/
theorem of_request {i : Instr} (hr : Safety.isRequest i = true) (hl : (encode i).1 = .request)
    (h : i.wf = true → legalRequest (encode i).2 = true) (hn : ∀ bytes, i ≠ .illegalRequest bytes) : Statement i :=
  fun hw => ⟨fun _ => ⟨hl, fun _ => hn, fun _ => h hw⟩, fun hf => by rw [hr] at hf; cases hf⟩

/-- A part of a request. -/
theorem of_part {i : Instr} (hr : Safety.isRequest i = false) (hl : (encode i).1 ≠ .request) : Statement i :=
  fun _ => ⟨fun ht => by rw [hr] at ht; (cases ht), fun _ => hl⟩

theorem init : Statement .init := of_request rfl rfl (fun _ => rfl) (by simp)

theorem displayOn : Statement .displayOn := of_request rfl rfl (fun _ => rfl) (by simp)

theorem displayOff : Statement .displayOff := of_request rfl rfl (fun _ => rfl) (by simp)

theorem backlightOn : Statement .backlightOn := of_request rfl rfl (fun _ => rfl) (by simp)

theorem backlightOff : Statement .backlightOff := of_request rfl rfl (fun _ => rfl) (by simp)

theorem clear : Statement .clear := of_request rfl rfl (fun _ => rfl) (by simp)

theorem setCursor (col : Byte) (row : Byte) : Statement (.setCursor col row) :=
  of_request rfl rfl (fun _ => rfl) (by simp)

theorem print (ch : Byte) : Statement (.print ch) := of_request rfl rfl (fun _ => rfl) (by simp)

theorem printText (text : List Byte) : Statement (.printText text) := of_request rfl rfl (fun _ => rfl) (by simp)

theorem printWrapped (text : List Byte) : Statement (.printWrapped text) :=
  of_request rfl rfl (fun _ => rfl) (by simp)

theorem autoscroll (enable : Bool) : Statement (.autoscroll enable) :=
  of_request rfl rfl (fun _ => by cases enable <;> rfl) (by simp)

theorem scrollLeft : Statement .scrollLeft := of_request rfl rfl (fun _ => rfl) (by simp)

theorem scrollRight : Statement .scrollRight := of_request rfl rfl (fun _ => rfl) (by simp)

theorem textDirectionLeftToRight : Statement .textDirectionLeftToRight := of_request rfl rfl (fun _ => rfl) (by simp)

theorem textDirectionRightToLeft : Statement .textDirectionRightToLeft := of_request rfl rfl (fun _ => rfl) (by simp)

theorem home : Statement .home := of_request rfl rfl (fun _ => rfl) (by simp)

theorem nextLine : Statement .nextLine := of_request rfl rfl (fun _ => rfl) (by simp)

theorem defineCustomGlyph (slot : Byte) (pattern : List Byte) : Statement (.defineCustomGlyph slot pattern) :=
  of_request rfl rfl (fun hw => by simpa [encode, legalRequest, legalArgs, Instr.wf] using hw) (by simp)

theorem illegalRequest (bytes : List Byte) : Statement (.illegalRequest bytes) := by
  intro hw
  refine ⟨fun _ => ⟨rfl, fun h => ?_, fun h => absurd rfl (h bytes)⟩, fun h => by cases h⟩
  simp only [encode] at h
  simp [Instr.wf, h] at hw

theorem lcdClear : Statement .lcdClear := of_part rfl (by simp [encode])

theorem lcdHome : Statement .lcdHome := of_part rfl (by simp [encode])

theorem lcdEntry (dir : Bool) (auto : Bool) : Statement (.lcdEntry dir auto) := of_part rfl (by simp [encode])

theorem lcdDispCtl (disp : Bool) (cursor : Bool) (blink : Bool) : Statement (.lcdDispCtl disp cursor blink) :=
  of_part rfl (by simp [encode])

theorem lcdShift (move : Bool) (right : Bool) : Statement (.lcdShift move right) := of_part rfl (by simp [encode])

theorem lcdFuncSet (eight : Bool) (twoLine : Bool) (font : Bool) : Statement (.lcdFuncSet eight twoLine font) :=
  of_part rfl (by simp [encode])

theorem lcdSetCgram (slot : BitVec 3) : Statement (.lcdSetCgram slot) := of_part rfl (by simp [encode])

theorem lcdSetDdram (addr : BitVec 7) : Statement (.lcdSetDdram addr) := of_part rfl (by simp [encode])

theorem lcdData (byte : Byte) : Statement (.lcdData byte) := of_part rfl (by simp [encode])

theorem rawNibble3 : Statement .rawNibble3 := of_part rfl (by simp [encode])

theorem rawNibble2 : Statement .rawNibble2 := of_part rfl (by simp [encode])

theorem frameEnHigh (nibble : Nibble) (light : Bool) (rs : Bool) : Statement (.frameEnHigh nibble light rs) :=
  of_part rfl (by simp [encode])

theorem frameEnLow (nibble : Nibble) (light : Bool) (rs : Bool) : Statement (.frameEnLow nibble light rs) :=
  of_part rfl (by simp [encode])

theorem frameRawLatch (light : Bool) : Statement (.frameRawLatch light) := of_part rfl (by simp [encode])

theorem tx (v : Byte) : Statement (.tx v) := of_part rfl (by simp [encode])

end Sys2Proof.Laws.HostRecord
end

