-- ==== Sys2Proof/Laws/PortBlind.lean ====
section
/-! SUPPORT. No part of a request reads the expander's port (10_state.md R38, 20_memory.md R46): run from two states that
differ in the port alone, it goes the same way, and the ports agree afterwards or are both still the old ones. -/

namespace Sys2Proof.Machine

/-- The state with another value on the expander's port. -/
def State.withPort (s : State) (p : Byte) : State := { s with port := p }

/-- The state a part ends in, however it goes. -/
def Flow.last : Flow → State
  | .go s => s
  | .raise _ s => s
  | .abort _ s => s

/-- The flow with another value on the port of its last state. -/
def Flow.withPort (p : Byte) : Flow → Flow
  | .go s => .go (s.withPort p)
  | .raise e s => .raise e (s.withPort p)
  | .abort r s => .abort r (s.withPort p)

/-- From two states that differ in the port alone, the part goes the same way but for the port. -/
def PortBlind (f : State → Flow) : Prop :=
  ∀ s p, ∃ q, f (s.withPort p) = (f s).withPort q ∧ (q = (f s).last.port ∨ (q = p ∧ (f s).last.port = s.port))

theorem portBlind_go : PortBlind .go := fun _ p => ⟨p, rfl, .inr ⟨rfl, rfl⟩⟩

theorem portBlind_raise (e : ErrorCode) : PortBlind (.raise e) := fun _ p => ⟨p, rfl, .inr ⟨rfl, rfl⟩⟩

theorem portBlind_abort (r : FaultReason) : PortBlind (.abort r) := fun _ p => ⟨p, rfl, .inr ⟨rfl, rfl⟩⟩

/-- Two values of a port that agree, or are both the old ones, stay so. -/
theorem portBlind_trans {a b c d old p : Byte} (h : a = b ∨ (a = p ∧ b = old)) (h' : c = d ∨ (c = a ∧ d = b)) :
    c = d ∨ (c = p ∧ d = old) := by
  rcases h' with h' | ⟨rfl, rfl⟩
  · exact .inl h'
  · exact h

theorem PortBlind.andThen {f g : State → Flow} (hf : PortBlind f) (hg : PortBlind g) :
    PortBlind fun s => (f s).andThen g := by
  intro s p
  obtain ⟨q, h, hq⟩ := hf s p
  simp only [h]
  cases hs : f s with
  | go t =>
    obtain ⟨r, h', hr⟩ := hg t q
    rw [hs] at hq
    exact ⟨r, h', portBlind_trans hq hr⟩
  | raise e t => exact ⟨q, rfl, by rw [hs] at hq; exact hq⟩
  | abort e t => exact ⟨q, rfl, by rw [hs] at hq; exact hq⟩

/-- A part performed after a write of the block's own fields. -/
theorem PortBlind.after {f : State → Flow} (hf : PortBlind f) (u : State → State)
    (hu : ∀ s p, u (s.withPort p) = (u s).withPort p) (hp : ∀ s, (u s).port = s.port) : PortBlind fun s => f (u s) := by
  intro s p
  obtain ⟨q, h, hq⟩ := hf (u s) p
  rw [hp] at hq
  exact ⟨q, by simpa only [hu] using h, hq⟩

/-- A part chosen by what is not the port. -/
theorem portBlind_of_fields {α : Type} (g : State → α) (f : α → State → Flow) (hg : ∀ s p, g (s.withPort p) = g s)
    (hf : ∀ a, PortBlind (f a)) : PortBlind fun s => f (g s) s := by
  intro s p
  simp only [hg]
  exact hf (g s) s p

theorem portBlind_ite {c : State → Prop} [∀ s, Decidable (c s)] {f g : State → Flow}
    (hc : ∀ s p, c (s.withPort p) ↔ c s) (hf : PortBlind f) (hg : PortBlind g) :
    PortBlind fun s => if c s then f s else g s := by
  intro s p
  by_cases h : c s
  · simpa only [if_pos h, if_pos ((hc s p).2 h)] using hf s p
  · simpa only [if_neg h, if_neg (mt (hc s p).1 h)] using hg s p

/-- One transaction: what it leaves on the port is the same for both, or is what each had. -/
theorem transact_withPort (v : Byte) (s : State) (p : Byte) :
    ∃ q, transact v (s.withPort p) = (transact v s).withPort q ∧
      (q = (transact v s).port ∨ (q = p ∧ (transact v s).port = s.port)) := by
  refine ⟨(transact v (s.withPort p)).port, rfl, ?_⟩
  show portAfter (nextAnswer s) (Config.failedWrite s.draws) v p =
      portAfter (nextAnswer s) (Config.failedWrite s.draws) v s.port ∨ _
  cases ha : nextAnswer s with
  | ok => exact .inl rfl
  | fail =>
    cases hd : Config.failedWrite s.draws with
    | kept => exact .inr ⟨by simp only [transact, State.withPort, nextAnswer] at ha ⊢; simp [ha, hd, portAfter],
        by simp [transact, ha, hd, portAfter]⟩
    | lead => exact .inl rfl
    | value => exact .inl rfl

theorem perform_portBlind (l : List MicroOp) : PortBlind (perform l) := by
  induction l with
  | nil => exact portBlind_go
  | cons x l ih =>
    cases x with
    | wait t => exact ih.after (delay t) (fun _ _ => rfl) fun _ => rfl
    | tx v =>
      intro s p
      obtain ⟨q, h, hq⟩ := transact_withPort v s p
      have ha : nextAnswer (s.withPort p) = nextAnswer s := rfl
      simp only [perform, ha, h]
      cases nextAnswer s with
      | ok =>
        obtain ⟨r, h', hr⟩ := ih (transact v s) q
        exact ⟨r, h', portBlind_trans hq hr⟩
      | fail => exact ⟨q, rfl, hq⟩

theorem send_portBlind (b : Byte) (rs : Bool) : PortBlind (send b rs) :=
  portBlind_of_fields State.backlight (fun l => perform (sendSeq l b rs)) (fun _ _ => rfl) fun _ => perform_portBlind _

/-- A send of a byte computed from fields of the block. -/
theorem sendOf_portBlind (g : State → Byte) (rs : Bool) (hg : ∀ s p, g (s.withPort p) = g s) :
    PortBlind fun s => send (g s) rs s :=
  portBlind_of_fields g (fun b => send b rs) hg fun _ => send_portBlind _ _

theorem rawNibble_portBlind (n : Nibble) : PortBlind (rawNibble n) :=
  portBlind_of_fields State.backlight (fun l => perform (nibbleSeq l (nibbleData n) false)) (fun _ _ => rfl)
    fun _ => perform_portBlind _

theorem rawLatch_portBlind : PortBlind rawLatch :=
  portBlind_of_fields State.backlight (fun l => sendByte (blMask l)) (fun _ _ => rfl) fun _ => perform_portBlind _

theorem waitFor_portBlind (t : Nat) : PortBlind (waitFor t) := perform_portBlind _

theorem fmtClear_portBlind : PortBlind fmtClear := (send_portBlind _ _).andThen (waitFor_portBlind _)

theorem fmtHome_portBlind : PortBlind fmtHome := (send_portBlind _ _).andThen (waitFor_portBlind _)

theorem fmtEntry_portBlind : PortBlind fmtEntry := sendOf_portBlind (fun s => entryByte s.displayMode) _ fun _ _ => rfl

theorem fmtDispCtl_portBlind : PortBlind fmtDispCtl :=
  sendOf_portBlind (fun s => dispCtlByte s.displayControl) _ fun _ _ => rfl

theorem fmtFuncSet_portBlind : PortBlind fmtFuncSet :=
  sendOf_portBlind (fun s => funcSetByte false (decide (1 < s.rows.toNat)) false) _ fun _ _ => rfl

theorem setCurrentLine_portBlind (row : Byte) : PortBlind (setCurrentLine row) :=
  portBlind_go.after (fun s => { s with currentLine := row }) (fun _ _ => rfl) fun _ => rfl

theorem clearBody_portBlind : PortBlind clearBody := fmtClear_portBlind.andThen (setCurrentLine_portBlind 0)

theorem setCursorBody_portBlind (col row : Byte) : PortBlind (setCursorBody col row) := by
  refine portBlind_ite (fun _ _ => Iff.rfl) (portBlind_raise _) ?_
  refine portBlind_of_fields (fun s => rowOffsets s.rows)
    (fun o s => match o with
      | none => .raise .unsupportedRowCount s
      | some offsets => (fmtSetDdram (ddramAddr col (rowOffset offsets row)) s).andThen (setCurrentLine row))
    (fun _ _ => rfl) fun o => ?_
  cases o with
  | none => exact portBlind_raise _
  | some offsets => exact (send_portBlind _ _).andThen (setCurrentLine_portBlind _)

theorem nextLineBody_portBlind : PortBlind nextLineBody := by
  refine portBlind_ite (fun _ _ => Iff.rfl) (portBlind_raise _) ?_
  exact portBlind_of_fields (fun s => nextRow s.currentLine s.rows)
    (fun row s => (setCurrentLine row s).andThen (setCursorBody 0 row)) (fun _ _ => rfl)
    fun row => (setCurrentLine_portBlind row).andThen (setCursorBody_portBlind 0 row)

theorem dataBytes_portBlind (bytes : List Byte) : PortBlind (dataBytes bytes) := by
  induction bytes with
  | nil => exact portBlind_go
  | cons b rest ih => exact (send_portBlind _ _).andThen ih

theorem printWrappedFrom_portBlind (text : List Byte) (i : Nat) : PortBlind (printWrappedFrom text i) := by
  induction text generalizing i with
  | nil => exact portBlind_go
  | cons ch rest ih =>
    refine portBlind_ite (fun _ _ => Iff.rfl) (portBlind_abort _) ?_
    exact portBlind_of_fields (fun s => (wrapCol s.cols i, wrapRow s.cols s.rows i))
      (fun c s => (setCursorBody c.1 c.2 s).andThen fun s₁ => (fmtData ch s₁).andThen fun s₂ =>
        printWrappedFrom rest (i + 1) s₂) (fun _ _ => rfl)
      fun c => (setCursorBody_portBlind _ _).andThen ((send_portBlind _ _).andThen (ih _))

theorem defineCustomGlyphBody_portBlind (slot : Byte) (pattern : List Byte) :
    PortBlind (defineCustomGlyphBody slot pattern) :=
  portBlind_ite (fun _ _ => Iff.rfl) (portBlind_raise _) ((send_portBlind _ _).andThen (dataBytes_portBlind _))

theorem setDisplayControlBody_portBlind (f : Byte → Byte) : PortBlind (setDisplayControlBody f) :=
  fmtDispCtl_portBlind.after (fun s => { s with displayControl := f s.displayControl }) (fun _ _ => rfl) fun _ => rfl

theorem setDisplayModeBody_portBlind (f : Byte → Byte) : PortBlind (setDisplayModeBody f) :=
  fmtEntry_portBlind.after (fun s => { s with displayMode := f s.displayMode }) (fun _ _ => rfl) fun _ => rfl

theorem abortOnFailure_last (f : Flow) : (abortOnFailure f).last = f.last := by
  cases f with
  | raise e => cases e <;> rfl
  | go | abort => rfl

theorem abortOnFailure_withPort (f : Flow) (p : Byte) :
    abortOnFailure (f.withPort p) = (abortOnFailure f).withPort p := by
  cases f with
  | raise e => cases e <;> rfl
  | go | abort => rfl

theorem PortBlind.abortOnFailure {f : State → Flow} (hf : PortBlind f) :
    PortBlind fun s => Machine.abortOnFailure (f s) := by
  intro s p
  obtain ⟨q, h, hq⟩ := hf s p
  exact ⟨q, by simp only [h, abortOnFailure_withPort], by simpa only [abortOnFailure_last] using hq⟩

theorem backlightBody_portBlind (on : Bool) : PortBlind (backlightBody on) :=
  (rawLatch_portBlind.after (fun s => { s with backlight := on }) (fun _ _ => rfl) fun _ => rfl).abortOnFailure

theorem resetNibbles_portBlind : PortBlind resetNibbles :=
  ((((((((waitFor_portBlind _).andThen rawLatch_portBlind).andThen (waitFor_portBlind _)).andThen
    (rawNibble_portBlind _)).andThen (waitFor_portBlind _)).andThen (rawNibble_portBlind _)).andThen
    (waitFor_portBlind _)).andThen (rawNibble_portBlind _)).andThen ((waitFor_portBlind _).andThen (rawNibble_portBlind _))

theorem configureLcd_portBlind : PortBlind configureLcd :=
  (((fmtFuncSet_portBlind.andThen (fmtDispCtl_portBlind.after (fun s => { s with displayControl := initDisplayControl })
    (fun _ _ => rfl) fun _ => rfl)).andThen clearBody_portBlind).andThen
    (fmtEntry_portBlind.after (fun s => { s with displayMode := initDisplayMode }) (fun _ _ => rfl) fun _ => rfl)).andThen
    fmtHome_portBlind

theorem initBody_portBlind : PortBlind initBody :=
  ((resetNibbles_portBlind.after (fun s => { s with lifecycle := .uninitialized }) (fun _ _ => rfl) fun _ => rfl).andThen
    configureLcd_portBlind).andThen
    (portBlind_go.after (fun s => { s with lifecycle := .ready, coherent := true }) (fun _ _ => rfl) fun _ => rfl)

end Sys2Proof.Machine
end

