-- ==== Sys2Proof/Tests/Slice0.lean ====
section
/-! SUPPORT. Tests: ill-formed terms refused, words written out from the encoding tables, one step per instruction against
the vectors of 95_test_vectors.md, and for every statement with hypotheses a state and operands that meet them. -/

namespace Sys2Proof.Tests

open Sys2Proof.Machine Sys2Proof.Safety

/-! ### Helpers -/

/-- `n` answers `ok`. -/
def oks (n : Nat) : List Answer := List.replicate n .ok

/-- `k` answers `ok` and then a `fail`. -/
def failAt (k : Nat) : List Answer := oks k ++ [.fail]

/-- The "Ready state" of the vectors, with a geometry and the bus's coming answers. -/
def ready (cols rows : Byte) (answers : List Answer) : State :=
  { State.construct cols rows 0xFF with
    lifecycle := .ready, displayMode := 0x02, displayControl := 0x04, coherent := true, answers := answers }

/-- A new block, with the bus's coming answers. -/
def fresh (answers : List Answer) : State := { State.construct 16 2 0xFF with answers := answers }

/-- The next state, if there is one. -/
def run (i : Instr) (s : State) : Option State :=
  match exec i s with
  | .next t => some t
  | .fault _ => none
  | .refused _ => none

/-- The frame bytes of the trace and the results of a run. -/
def frames (i : Instr) (s : State) : Option (List Byte × List Result) :=
  (run i s).map fun t =>
    (t.trace.filterMap fun e =>
      match e with
      | .tx v _ => some v
      | .wait _ => none,
      t.results)

/-- The fields of R20 and the flag of R35. -/
def fields (i : Instr) (s : State) : Option (Lifecycle × Byte × Byte × Bool × Byte × Bool) :=
  (run i s).map fun t => (t.lifecycle, t.displayMode, t.displayControl, t.backlight, t.currentLine, t.coherent)

def glyph : List Byte := [0x00, 0x0A, 0x1F, 0x1F, 0x0E, 0x04, 0x00, 0x00]

/-! ### Well-formedness (30_encoding.md R72, R84) -/

theorem test_wf_refuses_short_glyph : (Instr.defineCustomGlyph 0 [1, 2, 3, 4, 5, 6, 7]).wf = false := by decide
theorem test_wf_accepts_glyph : (Instr.defineCustomGlyph 8 glyph).wf = true := by decide
theorem test_wf_refuses_legal_bytes_as_illegal : (Instr.illegalRequest [0x06]).wf = false := by decide
theorem test_legal_refuses : legalRequest [] = false ∧ legalRequest [0x00] = false ∧ legalRequest [0x13] = false ∧
    legalRequest [0x01, 0x00] = false ∧ legalRequest [0x07, 0x01] = false ∧ legalRequest [0x08] = false ∧
    legalRequest [0x0B, 0x02] = false ∧ legalRequest (0x12 :: 0x00 :: glyph.take 7) = false := by decide

/-! ### Decoding: words written out from R71, R75, R76, R80 and R51 -/

theorem test_decode_plain_requests :
    decodeRequest [0x01] = .init ∧ decodeRequest [0x02] = .displayOn ∧ decodeRequest [0x03] = .displayOff ∧
    decodeRequest [0x04] = .backlightOn ∧ decodeRequest [0x05] = .backlightOff ∧ decodeRequest [0x06] = .clear ∧
    decodeRequest [0x0C] = .scrollLeft ∧ decodeRequest [0x0D] = .scrollRight ∧
    decodeRequest [0x0E] = .textDirectionLeftToRight ∧ decodeRequest [0x0F] = .textDirectionRightToLeft ∧
    decodeRequest [0x10] = .home ∧ decodeRequest [0x11] = .nextLine := by decide

/-- Programs P1, P2, P3, P6 and P7 of 95_test_vectors.md. -/
theorem test_decode_requests_with_arguments :
    decodeRequest [0x07, 0x00, 0x01] = .setCursor 0 1 ∧ decodeRequest [0x08, 0x41] = .print 0x41 ∧
    decodeRequest [0x09, 0x48, 0x69] = .printText [0x48, 0x69] ∧ decodeRequest [0x0A, 0x41] = .printWrapped [0x41] ∧
    decodeRequest [0x0B, 0x01] = .autoscroll true ∧
    decodeRequest (0x12 :: 0x01 :: glyph) = .defineCustomGlyph 1 glyph ∧
    decodeRequest [0x13, 0x07] = .illegalRequest [0x13, 0x07] := by decide

theorem test_decode_commands :
    decode .command [0b00000001] = .ok .lcdClear ∧ decode .command [0b00000010] = .ok .lcdHome ∧
    decode .command [0b00000110] = .ok (.lcdEntry true false) ∧
    decode .command [0b00001100] = .ok (.lcdDispCtl true false false) ∧
    decode .command [0b00011100] = .ok (.lcdShift true true) ∧
    decode .command [0b00101000] = .ok (.lcdFuncSet false true false) ∧
    decode .command [0b01101000] = .ok (.lcdSetCgram 5) ∧ decode .command [0b11010100] = .ok (.lcdSetDdram 0x54) ∧
    decode .data [0x01] = .ok (.lcdData 0x01) := by decide

theorem test_decode_rejects : decode .command [0x00] = .error .notACommand ∧
    decode .command [0x03] = .error .neverEmitted ∧ decode .command [0x41] = .error .neverEmitted ∧
    decode .rawNibble [0x01] = .error .notARawNibble ∧ decode .enHigh [0x06] = .error .notAFrame ∧
    decode .transaction [0x01, 0x08] = .error .wrongLead := by decide

theorem test_decode_frames :
    decode .rawNibble [0x03] = .ok .rawNibble3 ∧ decode .rawNibble [0x02] = .ok .rawNibble2 ∧
    decode .enHigh [0b01001101] = .ok (.frameEnHigh 4 true true) ∧
    decode .enLow [0b01001001] = .ok (.frameEnLow 4 true true) ∧
    decode .rawLatch [0b00001000] = .ok (.frameRawLatch true) ∧ decode .transaction [0x00, 0x0C] = .ok (.tx 0x0C) := by
  decide

/-- The table's word for init is the record `01`; a row shorter than its record is filled up with zeros. -/
theorem test_decode_table_words : decodeTableWord 8 0x01 = some .init ∧ decodeTableWord 24 0x010007 = some (.setCursor 0 1) ∧
    decodeTableWord 8 0x12 = some (.defineCustomGlyph 0 [0, 0, 0, 0, 0, 0, 0, 0]) ∧
    decodeTableWord 8 0x4D = some (.illegalRequest [0x4D]) := by decide

/-! ### One step per instruction (vectors of 95_test_vectors.md) -/

/-- Q1. -/
theorem test_init_frames : frames .init (fresh (oks 29)) = some ([0x08, 0x3C, 0x38, 0x3C, 0x38, 0x3C, 0x38, 0x2C, 0x28,
    0x2C, 0x28, 0x8C, 0x88, 0x0C, 0x08, 0xCC, 0xC8, 0x0C, 0x08, 0x1C, 0x18, 0x0C, 0x08, 0x6C, 0x68, 0x0C, 0x08, 0x2C,
    0x28], [.ok]) := by decide

/-- E17: the last transaction fails. -/
theorem test_init_failed_fields :
    fields .init (fresh (failAt 28)) = some (.uninitialized, 0x02, 0x04, true, 0, false) := by decide

/-- From a display that is off (R144), and Q3, E5. -/
theorem test_displayOn : frames .displayOn { ready 16 2 (oks 4) with displayControl := 0x00 } =
    some ([0x0C, 0x08, 0xCC, 0xC8], [.ok]) := by decide
theorem test_displayOff : frames .displayOff (ready 16 2 (oks 4)) = some ([0x0C, 0x08, 0x8C, 0x88], [.ok]) := by decide
theorem test_displayOff_failed : fields .displayOff (ready 16 2 (failAt 0)) = some (.ready, 0x02, 0x00, true, 0, false) := by
  decide

/-- Q4, E11. -/
theorem test_backlightOn : frames .backlightOn (ready 16 2 (oks 1)) = some ([0x08], [.ok]) := by decide
theorem test_backlightOn_failed :
    fields .backlightOn (ready 16 2 (failAt 0)) = some (.faulted .backlightBusAbort, 0x02, 0x04, true, 0, true) := by decide

/-- Q5, E12. -/
theorem test_backlightOff : frames .backlightOff (ready 16 2 (oks 1)) = some ([0x00], [.ok]) := by decide
theorem test_backlightOff_failed :
    fields .backlightOff (ready 16 2 (failAt 0)) = some (.faulted .backlightBusAbort, 0x02, 0x04, false, 0, true) := by decide

/-- Q6, E3: the settle wait is not begun, and the line is not reset. -/
theorem test_clear : (run .clear (ready 16 2 (oks 4))).map State.trace = some [.tx 0x0C .ok, .wait 1, .tx 0x08 .ok,
    .wait 50, .tx 0x1C .ok, .wait 1, .tx 0x18 .ok, .wait 50, .wait 2000] := by decide
theorem test_clear_failed : (run .clear { ready 16 2 (failAt 3) with currentLine := 1 }).map
    (fun t => (t.trace, t.currentLine)) = some ([.tx 0x0C .ok, .wait 1, .tx 0x08 .ok, .wait 50, .tx 0x1C .ok, .wait 1,
      .tx 0x18 .fail], 1) := by decide

/-- A8, A13. -/
theorem test_setCursor : frames (.setCursor 0xF0 1) (ready 16 2 (oks 4)) = some ([0xBC, 0xB8, 0x0C, 0x08], [.ok]) := by
  decide
theorem test_setCursor_checks_row_first :
    frames (.setCursor 0 5) (ready 16 3 []) = some ([], [.err .rowOutOfRange]) := by decide

/-- Q8, T12. -/
theorem test_print : frames (.print 0x41) (ready 16 2 (oks 4)) = some ([0x4D, 0x49, 0x1D, 0x19], [.ok]) := by decide
theorem test_print_failed : (run (.print 0x41) (ready 16 2 (failAt 2))).map State.trace =
    some [.tx 0x4D .ok, .wait 1, .tx 0x49 .ok, .wait 50, .tx 0x1D .fail] := by decide

/-- Q9, E7. -/
theorem test_printText : frames (.printText [0x48, 0x69]) (ready 16 2 (oks 8)) =
    some ([0x4D, 0x49, 0x8D, 0x89, 0x6D, 0x69, 0x9D, 0x99], [.ok]) := by decide
theorem test_printText_failed : frames (.printText [0x48, 0x69]) (ready 16 2 (failAt 5)) =
    some ([0x4D, 0x49, 0x8D, 0x89, 0x6D, 0x69], [.err .busFailure]) := by decide

/-- X4 in small: on one column and two rows the third character goes back to row 0; E19. -/
theorem test_printWrapped_wraps : frames (.printWrapped [0x41, 0x42, 0x43]) (ready 1 2 (oks 24)) =
    some ([0x8C, 0x88, 0x0C, 0x08, 0x4D, 0x49, 0x1D, 0x19, 0xCC, 0xC8, 0x0C, 0x08, 0x4D, 0x49, 0x2D, 0x29, 0x8C, 0x88,
      0x0C, 0x08, 0x4D, 0x49, 0x3D, 0x39], [.ok]) := by decide
theorem test_printWrapped_no_columns :
    fields (.printWrapped [0x41]) (ready 0 2 []) = some (.faulted .divideByZero, 0x02, 0x04, true, 0, true) := by decide

/-- Q11, Q11a. -/
theorem test_autoscroll_on : frames (.autoscroll true) (ready 16 2 (oks 4)) = some ([0x0C, 0x08, 0x7C, 0x78], [.ok]) := by
  decide
theorem test_autoscroll_off : frames (.autoscroll false) (ready 16 2 (oks 4)) = some ([0x0C, 0x08, 0x6C, 0x68], [.ok]) := by
  decide

/-- Q12, Q13. -/
theorem test_scrollLeft : frames .scrollLeft (ready 16 2 (oks 4)) = some ([0x1C, 0x18, 0x8C, 0x88], [.ok]) := by decide
theorem test_scrollRight : frames .scrollRight (ready 16 2 (oks 4)) = some ([0x1C, 0x18, 0xCC, 0xC8], [.ok]) := by decide

/-- Q14, X7. -/
theorem test_textDirectionLeftToRight :
    frames .textDirectionLeftToRight (ready 16 2 (oks 4)) = some ([0x0C, 0x08, 0x6C, 0x68], [.ok]) := by decide
theorem test_textDirectionRightToLeft : frames .textDirectionRightToLeft { ready 16 2 (oks 4) with displayMode := 0x03 } =
    some ([0x0C, 0x08, 0x5C, 0x58], [.ok]) := by decide

/-- Q16, with a line that is kept. -/
theorem test_home : frames .home (ready 16 2 (oks 4)) = some ([0x0C, 0x08, 0x2C, 0x28], [.ok]) := by decide
theorem test_home_keeps_line :
    fields .home { ready 16 2 (oks 4) with currentLine := 1 } = some (.ready, 0x02, 0x04, true, 1, true) := by decide

/-- Q17, E24. -/
theorem test_nextLine : frames .nextLine (ready 16 2 (oks 4)) = some ([0xCC, 0xC8, 0x0C, 0x08], [.ok]) := by decide
theorem test_nextLine_unsupported :
    fields .nextLine { ready 16 3 [] with currentLine := 2 } = some (.ready, 0x02, 0x04, true, 0, true) := by decide

/-- E10, E28. -/
theorem test_glyph_failed : frames (.defineCustomGlyph 2 (List.replicate 8 0x01)) (ready 16 2 (failAt 13)) =
    some ([0x5C, 0x58, 0x0C, 0x08, 0x0D, 0x09, 0x1D, 0x19, 0x0D, 0x09, 0x1D, 0x19, 0x0D, 0x09], [.err .busFailure]) := by
  decide
theorem test_glyph_seven_bytes : fields (.defineCustomGlyph 0 (glyph.take 7)) (ready 16 2 []) =
    some (.faulted .illegalRequest, 0x02, 0x04, true, 0, true) := by decide

/-- E27, E14. -/
theorem test_illegalRequest :
    fields (.illegalRequest [0x13]) (ready 16 2 []) = some (.faulted .illegalRequest, 0x02, 0x04, true, 0, true) := by decide
theorem test_not_ready : fields .clear (fresh []) = some (.faulted .notReady, 0, 0, true, 0, false) := by decide

/-- M1, M2: as parts they return no result. -/
theorem test_lcdClear : frames .lcdClear (ready 16 2 (oks 4)) = some ([0x0C, 0x08, 0x1C, 0x18], []) := by decide
theorem test_lcdHome : frames .lcdHome (ready 16 2 (oks 4)) = some ([0x0C, 0x08, 0x2C, 0x28], []) := by decide

/-- M3c, M4a, M6, M7a, M8a, M9b, M10a. -/
theorem test_lcdEntry : frames (.lcdEntry false true) (ready 16 2 (oks 4)) = some ([0x0C, 0x08, 0x5C, 0x58], []) := by decide
theorem test_lcdDispCtl :
    frames (.lcdDispCtl false false false) (ready 16 2 (oks 4)) = some ([0x0C, 0x08, 0x8C, 0x88], []) := by decide
theorem test_lcdShift : frames (.lcdShift true true) (ready 16 2 (oks 4)) = some ([0x1C, 0x18, 0xCC, 0xC8], []) := by decide
theorem test_lcdFuncSet :
    frames (.lcdFuncSet false false false) (ready 16 2 (oks 4)) = some ([0x2C, 0x28, 0x0C, 0x08], []) := by decide
theorem test_lcdSetCgram : frames (.lcdSetCgram 1) (ready 16 2 (oks 4)) = some ([0x4C, 0x48, 0x8C, 0x88], []) := by decide
theorem test_lcdSetDdram : frames (.lcdSetDdram 0x4F) (ready 16 2 (oks 4)) = some ([0xCC, 0xC8, 0xFC, 0xF8], []) := by decide
theorem test_lcdData : frames (.lcdData 0x41) { ready 16 2 (oks 4) with backlight := false } =
    some ([0x45, 0x41, 0x15, 0x11], []) := by decide

/-- T2, T6, and the two halves of T2. -/
theorem test_rawNibble3 : (run .rawNibble3 (fresh (oks 2))).map State.trace =
    some [.tx 0x3C .ok, .wait 1, .tx 0x38 .ok, .wait 50] := by decide
theorem test_rawNibble2 : (run .rawNibble2 (fresh (oks 2))).map State.trace =
    some [.tx 0x2C .ok, .wait 1, .tx 0x28 .ok, .wait 50] := by decide
theorem test_frameEnHigh : frames (.frameEnHigh 3 true false) (fresh (oks 1)) = some ([0x3C], []) := by decide
theorem test_frameEnLow : frames (.frameEnLow 3 true false) (fresh (oks 1)) = some ([0x38], []) := by decide

/-- T8, T1. -/
theorem test_frameRawLatch : frames (.frameRawLatch false) (fresh (oks 1)) = some ([0x00], []) := by decide
theorem test_tx : (run (.tx 0x0C) (fresh (oks 1))).map (fun t => (t.trace, t.port)) =
    some ([.tx 0x0C .ok], 0x0C) := by decide

/-! ### The step -/

/-- The record of a table word is performed at once (log entry 7), and E13: a faulted block takes no step. -/
theorem test_step_runs_the_placed_record : step ((ready 16 2 []).withFetchWord 24 0x020007) =
    .next (returned (.err .rowOutOfRange) (ready 16 2 [])) := rfl
theorem test_step_faulted :
    step { ready 16 2 [] with lifecycle := .faulted .notReady, requests := [[0x06]] } = .fault (.halted .notReady) := rfl

/-! ### Witnesses: for each statement with hypotheses, a state and operands that meet them together -/

theorem alive_of_ready {s : State} (h : s.lifecycle = .ready) : Alive s := by
  intro r hr
  rw [h] at hr
  cases hr

theorem alive_of_uninitialized {s : State} (h : s.lifecycle = .uninitialized) : Alive s := by
  intro r hr
  rw [h] at hr
  cases hr

/-- StepPerformsNextRecord: both clauses. -/
theorem witness_step_record : Alive { fresh [] with requests := [[0x01], [0x06]] } ∧
    { fresh [] with requests := [[0x01], [0x06]] }.requests = [0x01] :: [[0x06]] :=
  ⟨alive_of_uninitialized rfl, rfl⟩
theorem witness_step_idle : Alive (fresh []) ∧ (fresh []).requests = [] := ⟨alive_of_uninitialized rfl, rfl⟩

theorem witness_DecodeOfEncode : (Instr.defineCustomGlyph 7 glyph).wf = true := by decide
theorem witness_EncodeOfDecode : decode .command [0xFF] = .ok (.lcdSetDdram 0x7F) := by decide

/-- IllegalRecordsFault: the unassigned codes at both ends of their range, a legal code with bad arguments, and a pattern
of 7 and of 9 bytes. -/
theorem witness_illegal_codes : ((0x00 : Byte) = 0x00 ∨ 0x13 ≤ (0x00 : Byte).toNat) ∧
    ((0x13 : Byte) = 0x00 ∨ 0x13 ≤ (0x13 : Byte).toNat) ∧ ((0xFF : Byte) = 0x00 ∨ 0x13 ≤ (0xFF : Byte).toNat) ∧
    legalRequest [0x0B, 0x02] = false := by decide
theorem witness_illegal_pattern : Alive (ready 16 2 []) ∧ (glyph.take 7).length ≠ 8 ∧ (0x00 :: glyph).length ≠ 8 :=
  ⟨alive_of_ready rfl, by decide, by decide⟩

theorem witness_FaultedBlockTakesNoStep :
    { ready 16 2 [] with lifecycle := .faulted .backlightBusAbort }.lifecycle = .faulted .backlightBusAbort := rfl

theorem witness_RequestsBeforeInitFaultNotReady : isRequest (.defineCustomGlyph 0 glyph) = true ∧
    Instr.defineCustomGlyph 0 glyph ≠ .init ∧ (Instr.defineCustomGlyph 0 glyph).wf = true ∧
    (∀ bytes, Instr.defineCustomGlyph 0 glyph ≠ .illegalRequest bytes) ∧ (fresh []).lifecycle = .uninitialized :=
  ⟨rfl, by decide, by decide, by simp, rfl⟩

/-- The parts (TransactionWritesTheExpander, FrameRowsSendTheirByte, RawNibbleRowsPulseOnce, LcdRowsSendTheirByte): a block
that is alive, in both lifecycles; every answer `ok` up to the longest part; each of its transactions failing. -/
theorem witness_parts_alive : Alive (fresh (oks 4)) ∧ Alive (ready 16 2 (oks 4)) :=
  ⟨alive_of_uninitialized rfl, alive_of_ready rfl⟩
theorem witness_bus_ok : BusOk 1 (fresh (oks 4)) ∧ BusOk 2 (fresh (oks 4)) ∧ BusOk 4 (fresh (oks 4)) := by decide
theorem witness_bus_fails : BusFailsAt 0 (fresh (failAt 0)) ∧ BusFailsAt 1 (fresh (failAt 1)) ∧
    BusFailsAt 2 (fresh (failAt 2)) ∧ BusFailsAt 3 (fresh (failAt 3)) := by decide

theorem witness_SendEmitsTwoNibbleFrames : BusOk 4 (fresh (oks 4)) := by decide
theorem witness_NibbleFrameFailures : BusFailsAt 0 (fresh (failAt 0)) ∧ BusFailsAt 1 (fresh (failAt 1)) := by decide

/-- FormatterSendsTheRow: all documented flags set, and none. -/
theorem witness_FormatterSendsTheRow : Alive { ready 16 2 [] with displayMode := 0x03, displayControl := 0x07 } ∧
    ((0x03 : Byte) &&& 0xFC = 0) ∧ ((0x07 : Byte) &&& 0xF8 = 0) ∧ ((0x00 : Byte) &&& 0xFC = 0) :=
  ⟨alive_of_ready rfl, by decide, by decide, by decide⟩

/-- InitRunsTheBootSequence: from both lifecycles; failures at the first and last transaction and at those before and
after which a field is written. -/
theorem witness_init_ok : Alive (fresh (oks 29)) ∧ Alive (ready 16 2 (oks 29)) ∧ BusOk 29 (fresh (oks 29)) :=
  ⟨alive_of_uninitialized rfl, alive_of_ready rfl, by decide⟩
theorem witness_init_fails : BusFailsAt 0 (fresh (failAt 0)) ∧ BusFailsAt 12 (fresh (failAt 12)) ∧
    BusFailsAt 13 (fresh (failAt 13)) ∧ BusFailsAt 20 (fresh (failAt 20)) ∧ BusFailsAt 21 (fresh (failAt 21)) ∧
    BusFailsAt 28 (fresh (failAt 28)) := by decide

/-- RequestSends with four transactions (displayOn, displayOff, clear, print, autoscroll, the scrolls, the text directions,
home): Ready, all `ok`, and each transaction failing. -/
theorem witness_request_ok : (ready 16 2 (oks 4)).lifecycle = .ready ∧ BusOk 4 (ready 16 2 (oks 4)) := by decide
theorem witness_request_fails : (ready 16 2 (failAt 0)).lifecycle = .ready ∧ BusFailsAt 0 (ready 16 2 (failAt 0)) ∧
    BusFailsAt 3 (ready 16 2 (failAt 3)) := by decide

theorem witness_BacklightTogglesLatchOnce : (ready 16 2 (oks 1)).lifecycle = .ready ∧ BusOk 1 (ready 16 2 (oks 1)) ∧
    BusFailsAt 0 (ready 16 2 (failAt 0)) := by decide

theorem rowTable_two : RowTable 2 [0x00, 0x40] := .inr (.inl ⟨rfl, rfl⟩)
theorem rowTable_four : RowTable 4 [0x00, 0x40, 0x14, 0x54] := .inr (.inr ⟨rfl, rfl⟩)

/-- SetCursorAddressesTheCell: the first row out of range; the last row of an unsupported count; the last rows of 1, 2 and
4. -/
theorem witness_setCursor_row : (ready 16 2 []).lifecycle = .ready ∧ (ready 16 2 []).rows.toNat ≤ (2 : Byte).toNat ∧
    (ready 16 0 []).rows.toNat ≤ (0 : Byte).toNat := by decide
theorem witness_setCursor_unsupported : (2 : Byte).toNat < (ready 16 3 []).rows.toNat ∧
    UnsupportedRows (ready 16 3 []).rows ∧ (254 : Byte).toNat < (ready 16 255 []).rows.toNat ∧
    UnsupportedRows (ready 16 255 []).rows :=
  ⟨by decide, ⟨by decide, by decide, by decide⟩, by decide, ⟨by decide, by decide, by decide⟩⟩
theorem witness_setCursor_cell : RowTable (ready 16 2 (oks 4)).rows [0x00, 0x40] ∧
    (1 : Byte).toNat < (ready 16 2 (oks 4)).rows.toNat ∧ RowTable (ready 20 4 (oks 4)).rows [0x00, 0x40, 0x14, 0x54] ∧
    (3 : Byte).toNat < (ready 20 4 (oks 4)).rows.toNat ∧ RowTable (ready 16 1 []).rows [0x00] ∧
    BusOk 4 (ready 20 4 (oks 4)) ∧ BusFailsAt 3 (ready 20 4 (failAt 3)) :=
  ⟨rowTable_two, by decide, rowTable_four, by decide, .inl ⟨rfl, rfl⟩, by decide, by decide⟩

/-- PrintTextSendsInOrder and PrintTextDeliversTheText: two characters, and none. -/
theorem witness_printText : (ready 16 2 (oks 8)).lifecycle = .ready ∧ BusOk (4 * [0x48, 0x69].length) (ready 16 2 (oks 8)) ∧
    BusOk (4 * ([] : List Byte).length) (ready 16 2 []) ∧ BusFailsAt 5 (ready 16 2 (failAt 5)) := by decide

/-- PrintWrappedWalksTheCells: a witness for each of its five clauses. -/
theorem witness_printWrapped_checks : (ready 0 2 []).lifecycle = .ready ∧ ([] : List Byte) = [] ∧ [(0x41 : Byte)] ≠ [] ∧
    (ready 0 2 []).cols = 0 ∧ (ready 16 0 []).cols ≠ 0 ∧ (ready 16 0 []).rows = 0 ∧ (ready 16 3 []).rows ≠ 0 ∧
    UnsupportedRows (ready 16 3 []).rows :=
  ⟨rfl, rfl, by decide, rfl, by decide, rfl, by decide, ⟨by decide, by decide, by decide⟩⟩
theorem witness_printWrapped_cells : (ready 1 2 (oks 24)).lifecycle = .ready ∧
    RowTable (ready 1 2 (oks 24)).rows [0x00, 0x40] ∧ [(0x41 : Byte), 0x42, 0x43] ≠ [] ∧ (ready 1 2 (oks 24)).cols ≠ 0 ∧
    BusOk (8 * [(0x41 : Byte), 0x42, 0x43].length) (ready 1 2 (oks 24)) ∧ BusFailsAt 0 (ready 1 2 (failAt 0)) ∧
    BusFailsAt 23 (ready 1 2 (failAt 23)) :=
  ⟨rfl, rowTable_two, by decide, by decide, by decide, by decide, by decide⟩

/-- NextLineAdvancesThenWraps: a witness for each of its four clauses, with a line before and at the wrap. -/
theorem witness_nextLine : (ready 16 1 []).lifecycle = .ready ∧ (ready 16 1 []).rows = 1 ∧ (ready 16 0 []).rows = 0 ∧
    (ready 16 3 []).rows ≠ 0 ∧ UnsupportedRows (ready 16 3 []).rows ∧ RowTable (ready 16 2 (oks 4)).rows [0x00, 0x40] ∧
    (ready 16 2 (oks 4)).rows ≠ 1 ∧ BusOk 4 (ready 16 2 (oks 4)) ∧ BusFailsAt 0 (ready 16 2 (failAt 0)) :=
  ⟨rfl, rfl, rfl, by decide, ⟨by decide, by decide, by decide⟩, rowTable_two, by decide, by decide, by decide⟩

/-- The line after the last row is 0, also from 255 of 255 rows. -/
theorem test_lineAfter : lineAfter 0 2 = 1 ∧ lineAfter 1 2 = 0 ∧ lineAfter 3 4 = 0 ∧ lineAfter 255 255 = 0 := by decide

/-- DefineCustomGlyphWritesNineBytes: the slots on both sides of the limit. -/
theorem witness_glyph : glyph.length = 8 ∧ (ready 16 2 (oks 36)).lifecycle = .ready ∧ 7 < (8 : Byte).toNat ∧
    (7 : Byte).toNat ≤ 7 ∧ BusOk 36 (ready 16 2 (oks 36)) ∧ BusFailsAt 35 (ready 16 2 (failAt 35)) := by decide

/-- The frames and the whole-machine rules: a run of an instruction that each of them is about, with a next state. -/
theorem witness_frames_print : ∃ t, exec (.print 0x41) (ready 16 2 (oks 4)) = .next t ∧ isRequest (.print 0x41) = true ∧
    Instr.print 0x41 ≠ .init ∧ Instr.print 0x41 ≠ .backlightOn ∧ Instr.print 0x41 ≠ .backlightOff ∧
    (∀ on, Instr.print 0x41 ≠ .autoscroll on) ∧ Instr.print 0x41 ≠ .textDirectionLeftToRight ∧
    Instr.print 0x41 ≠ .textDirectionRightToLeft ∧ Instr.print 0x41 ≠ .displayOn ∧ Instr.print 0x41 ≠ .displayOff ∧
    Instr.print 0x41 ≠ .clear ∧ Instr.print 0x41 ≠ .nextLine ∧ (∀ col row, Instr.print 0x41 ≠ .setCursor col row) ∧
    (∀ text, Instr.print 0x41 ≠ .printWrapped text) :=
  ⟨_, rfl, rfl, by decide, by decide, by decide, by simp, by decide, by decide, by decide, by decide, by decide, by decide,
    by simp, by simp⟩
theorem witness_parts_run : isRequest (.tx 0x4D) = false ∧ ∃ t, exec (.tx 0x4D) (fresh (oks 1)) = .next t := ⟨rfl, _, rfl⟩

/-- LifecycleMovesOnlyAsListed and CoherentFollowsInitAndFailures: each clause's premise is met. -/
theorem witness_lifecycle_faults : fields .clear (fresh []) = some (.faulted .notReady, 0, 0, true, 0, false) ∧
    fields .backlightOn (ready 16 2 (failAt 0)) = some (.faulted .backlightBusAbort, 0x02, 0x04, true, 0, true) ∧
    fields (.printWrapped [0x41]) (ready 0 2 []) = some (.faulted .divideByZero, 0x02, 0x04, true, 0, true) ∧
    fields (.illegalRequest [0x00]) (ready 16 2 []) = some (.faulted .illegalRequest, 0x02, 0x04, true, 0, true) :=
  ⟨by decide, by decide, by decide, by decide⟩
theorem witness_coherent : (run .clear (ready 16 2 (failAt 0))).map (fun t => (t.results, t.coherent)) =
    some ([.err .busFailure], false) ∧
    fields .init (fresh (oks 29)) = some (.ready, 0x02, 0x04, true, 0, true) := by decide

/-- FailureEndsTheRequest: a run with a failed transaction among its events, and one of a toggle. -/
theorem witness_FailureEndsTheRequest : (run (.print 0x41) (ready 16 2 (failAt 0))).map State.trace =
    some ((ready 16 2 (failAt 0)).trace ++ [.tx 0x4D .fail]) ∧ isFail (.tx 0x4D .fail) = true ∧
    (run .backlightOff (ready 16 2 (failAt 0))).map State.trace = some [.tx 0x00 .fail] := by decide

/-- FailedRunIsTruncatedRun: an all-`ok` run of the same instruction with other answers, and a failure in its middle. -/
theorem witness_FailedRunIsTruncatedRun :
    (run .displayOff { ready 16 2 (failAt 1) with answers := oks 4 }).map State.trace =
      some ((ready 16 2 (failAt 1)).trace ++ sendEvents true 0x08 false) ∧
    (sendEvents true 0x08 false).all (fun e => !isFail e) = true ∧ 1 < txCount (sendEvents true 0x08 false) ∧
    BusFailsAt 1 (ready 16 2 (failAt 1)) := by decide

/-- UnsetFieldsAreNeverRead: init from a block with other values in the unset fields, and the same end. -/
theorem witness_UnsetFieldsAreNeverRead : isRequest .init = true ∧ (fresh (oks 29)).lifecycle = .uninitialized ∧
    fields .init (fresh (oks 29)) = some (.ready, 0x02, 0x04, true, 0, true) ∧
    fields .init { fresh (oks 29) with displayMode := 0xFF, displayControl := 0xFF, currentLine := 0xFF } =
      some (.ready, 0x02, 0x04, true, 0, true) := ⟨rfl, rfl, by decide, by decide⟩

/-- PortIsNeverRead: a run with a transaction that is answered `ok`, and one whose only transaction fails. -/
theorem witness_PortIsNeverRead : (∃ t, exec (.print 0x41) (ready 16 2 (oks 4)) = .next t) ∧
    ∃ t, exec .backlightOn (ready 16 2 (failAt 0)) = .next t := ⟨⟨_, rfl⟩, _, rfl⟩

/-- The invariants hold in the Ready state with a record at the host port, and the step answers a next state. -/
theorem witness_invariants : Inv { ready 16 2 (oks 4) with currentLine := 1, requests := [[0x08, 0x41]] } ∧
    TraceInv { ready 16 2 (oks 4) with currentLine := 1, requests := [[0x08, 0x41]] } ∧
    ∃ t, step { ready 16 2 (oks 4) with currentLine := 1, requests := [[0x08, 0x41]] } = .next t :=
  ⟨⟨fun _ => by decide, fun _ => by decide, fun _ => .inr (by decide), fun h => (nomatch h), rfl⟩,
    ⟨fun _ _ h => (nomatch h), rfl⟩, _, rfl⟩

/-- TraceInv is no empty condition: a trace with a frame that has RW set, and one with an unfinished pulse, break it. -/
theorem test_TraceInv_refuses : ¬ TraceInv { fresh [] with trace := [.tx 0x02 .ok] } ∧
    ¬ TraceInv { fresh [] with trace := [.tx 0x04 .ok, .tx 0x00 .ok] } :=
  ⟨fun h => absurd (h.rwLow 0x02 .ok (by simp)) (by decide), fun h => absurd h.timed (by decide)⟩

/-- DeliveredCommandsAreListed: setCursor from a state that meets the invariant delivers one command. -/
theorem witness_DeliveredCommandsAreListed : isRequest (.setCursor 0 1) = true ∧ Instr.setCursor 0 1 ≠ .init ∧
    (run (.setCursor 0 1) (ready 16 2 (oks 4))).map State.trace = some (sendEvents true 0xC0 false) ∧
    delivered (sendEvents true 0xC0 false) = [(0xC0, false)] ∧ isEmittedCommand 0xC0 = true ∧
    isEmittedCommand 0x03 = false := by decide
theorem witness_DeliveredCommandsAreListed_inv : Inv (ready 16 2 (oks 4)) :=
  ⟨fun _ => by decide, fun _ => by decide, fun _ => .inl rfl, fun h => (nomatch h), rfl⟩

theorem witness_InitResynchronises : Alive (fresh (oks 29)) ∧ BusOk 29 (fresh (oks 29)) :=
  ⟨alive_of_uninitialized rfl, by decide⟩

/-- FailureBetweenNibblesLeavesOne: its two clauses, and what a command and a data byte latch. -/
theorem witness_FailureBetweenNibblesLeavesOne : (ready 16 2 (failAt 2)).lifecycle = .ready ∧
    BusFailsAt 2 (ready 16 2 (failAt 2)) ∧ BusFailsAt 2 (fresh (failAt 2)) ∧
    (run .clear (ready 16 2 (failAt 2))).map (fun t => latched false t.trace) = some [(0x0, false)] ∧
    (run (.print 0x41) (ready 16 2 (failAt 2))).map (fun t => latched false t.trace) = some [(0x4, true)] := by decide

/-- EnableLeftHighLatchesAStrayNibble: its three clauses. -/
theorem witness_EnableLeftHighLatchesAStrayNibble : (ready 16 2 (oks 4)).lifecycle = .ready ∧
    BusOk 1 (ready 16 2 (oks 4)) ∧ BusOk 4 (ready 16 2 (oks 4)) ∧ BusOk 29 (ready 16 2 (oks 29)) := by decide

/-- CompoundRequestsExpand: a first print that goes well and one that fails, and nextLine on two rows. -/
theorem witness_CompoundRequestsExpand : (ready 16 2 (oks 8)).lifecycle = .ready ∧
    (run (.print 0x48) (ready 16 2 (oks 8))).map State.results = some ((ready 16 2 (oks 8)).results ++ [.ok]) ∧
    (run (.print 0x48) (ready 16 2 (failAt 2))).map State.results =
      some ((ready 16 2 (failAt 2)).results ++ [.err .busFailure]) ∧
    (ready 16 2 (oks 4)).rows ≠ 1 := by decide

/-- The minimum duration of a run from Ready on two rows with `n` answers `ok`, if the run makes exactly `n`
transactions (the trace before it is empty). -/
def micros (i : Instr) (n : Nat) : Option Nat :=
  (run i (ready 16 2 (oks n))).bind fun t => if txCount t.trace = n then some (minMicros t.trace) else none

/-- MinimumDurations: an all-`ok` run for each of its clauses, with the totals of R246, and the premises of the clauses
with conditions. -/
theorem witness_MinimumDurations_runs : micros .init 29 = some 69214 ∧ micros .clear 4 = some 2102 ∧
    micros .home 4 = some 2102 ∧ micros .displayOff 4 = some 102 ∧ micros (.autoscroll true) 4 = some 102 ∧
    micros (.print 0x41) 4 = some 102 ∧ micros .backlightOff 1 = some 0 ∧ micros (.setCursor 3 1) 4 = some 102 ∧
    micros .nextLine 4 = some 102 ∧ micros (.defineCustomGlyph 7 glyph) 36 = some 918 ∧
    micros (.printText [0x48, 0x69]) 8 = some 204 ∧ micros (.printWrapped [0x48, 0x69]) 16 = some 408 := by decide
theorem witness_MinimumDurations : (∀ n, (ready 16 2 (oks n)).lifecycle = .ready) ∧
    (∀ n, (ready 16 2 (oks n)).trace = []) ∧ BusOk 4 (ready 16 2 (oks 4)) ∧ BusOk 29 (ready 16 2 (oks 29)) ∧
    BusOk 36 (ready 16 2 (oks 36)) ∧ RowTable (ready 16 2 (oks 4)).rows [0x00, 0x40] ∧
    (1 : Byte).toNat < (ready 16 2 (oks 4)).rows.toNat ∧ (ready 16 2 (oks 4)).rows ≠ 1 ∧ (7 : Byte).toNat ≤ 7 ∧
    glyph.length = 8 ∧ (ready 16 2 (oks 4)).cols ≠ 0 :=
  ⟨fun _ => rfl, fun _ => rfl, by decide, by decide, by decide, rowTable_two, by decide, by decide, by decide, by decide,
    by decide⟩
theorem witness_MinimumDurations_send : ∃ t, send 0x41 true (fresh (oks 4)) = .go t ∧
    t.trace = (fresh (oks 4)).trace ++ sendEvents true 0x41 true := ⟨_, rfl, rfl⟩

end Sys2Proof.Tests
end

section
/-! What an instruction's events look like where a transaction fails, and how it then ends (00_scope.md R12,
40_transmit.md R104): read off the model's list of ends, `exec_ends`. -/

namespace Sys2Proof.Machine

open Sys2Proof.Safety

/-! ### The fields written and the frame at the end leave the history alone -/

@[simp] theorem atFailure_trace (i : Instr) (s : State) (k : Nat) : (atFailure i s k).trace = s.trace := by
  cases i <;> rfl

@[simp] theorem atFailure_results (i : Instr) (s : State) (k : Nat) : (atFailure i s k).results = s.results := by
  cases i <;> rfl

@[simp] theorem atEnd_trace (i : Instr) (s : State) : (atEnd i s).trace = s.trace := by
  cases i <;> rfl

@[simp] theorem finish_trace (i : Instr) (s : State) : (finish i s).trace = s.trace := by
  unfold finish
  split <;> rfl

@[simp] theorem failWith_trace (i : Instr) (s : State) : (failWith i s).trace = s.trace := by
  unfold failWith
  split <;> rfl

/-! ### The end at a failed transaction -/

theorem isToggle_iff (i : Instr) : isToggle i = true ↔ i = .backlightOn ∨ i = .backlightOff := by
  cases i <;> simp [isToggle]

/-- A toggle faults at a failed transaction, and every other instruction returns `BusFailure` (R12, R146, R147). -/
theorem failWith_outcome (i : Instr) (s : State) :
    if i = .backlightOn ∨ i = .backlightOff then
      (failWith i s).lifecycle = .faulted .backlightBusAbort ∧ (failWith i s).results = s.results
    else (failWith i s).results = s.results ++ [.err .busFailure] := by
  simp only [failWith, isToggle_iff]
  split
  · exact ⟨rfl, rfl⟩
  · rfl

/-- An ended instruction has made no failed transaction, or its last event is the only one and it ended there, with no
result returned before. -/
theorem Ends.allOk_or_failWith {i : Instr} {s t : State} {evs : List Event} (h : Ends i s t)
    (ht : t.trace = s.trace ++ evs) :
    AllOk evs ∨ ∃ a v u, evs = a ++ [.tx v .fail] ∧ AllOk a ∧ t = failWith i u ∧ u.results = s.results := by
  cases h with
  | illegal | notReady | error | divide =>
    have hnil : evs = [] := by simpa [faultedWith, returned] using ht
    exact .inl (by simp [AllOk, hnil])
  | done _ _ hu =>
    have hev : instrEvents i s = evs := by simpa using ht
    exact .inl (hev ▸ instrEvents_allOk i s hu)
  | fails k p _ _ hu hk =>
    have hev : failedAt k (instrEvents i s) = evs := by simpa using ht
    obtain ⟨a, v, hlast, hok⟩ := failedAt_eq_allOk_append k _ (instrEvents_allOk i s hu) hk
    exact .inr ⟨a, v, _, hev ▸ hlast, hok, rfl, by simp⟩

/-- Settles O40: an instruction either makes no failed transaction, or ends at the only one it makes. -/
theorem failureEndsTheRequest : Obligations.FailureEndsTheRequest := by
  intro i s t evs ht htr
  rcases (exec_ends ht).allOk_or_failWith htr with hok | ⟨a, v, u, rfl, hok, rfl, hres⟩
  · refine ⟨fun e he => hok e (List.mem_of_mem_dropLast he), ?_⟩
    rintro ⟨e, he, hfail⟩
    simp [hok e he] at hfail
  · refine ⟨by rw [List.dropLast_concat]; exact hok, fun _ => ?_⟩
    rw [← hres]
    exact failWith_outcome i u

end Sys2Proof.Machine
end

section
/-! What an ended instruction has written of the block's fields, read off the model's list of ends, `exec_ends`: the frames
around a body change only the lifecycle, the sequencer position, `coherent` and the history. -/

namespace Sys2Proof.Machine

open Sys2Proof.Safety

/-! ### The block's own data fields -/

/-- The two states hold the same in the fields that only a request's body writes, and in the geometry (10_state.md R23 to
R27). -/
structure SameFields (t u : State) : Prop where
  displayMode : t.displayMode = u.displayMode
  displayControl : t.displayControl = u.displayControl
  backlight : t.backlight = u.backlight
  currentLine : t.currentLine = u.currentLine
  cols : t.cols = u.cols
  rows : t.rows = u.rows

theorem sameFields_faultedWith (r : FaultReason) (s : State) : SameFields (faultedWith r s) s :=
  ⟨rfl, rfl, rfl, rfl, rfl, rfl⟩

theorem sameFields_returned (r : Result) (s : State) : SameFields (returned r s) s := ⟨rfl, rfl, rfl, rfl, rfl, rfl⟩

theorem sameFields_finish_afterOk (i : Instr) (e : List Event) (s : State) :
    SameFields (finish i (afterOk e s)) s := by
  unfold finish
  split <;> exact ⟨rfl, rfl, rfl, rfl, rfl, rfl⟩

theorem sameFields_failWith_emitted (i : Instr) (e : List Event) (p : Byte) (s : State) :
    SameFields (failWith i (emitted e p s)) s := by
  unfold failWith
  split <;> exact ⟨rfl, rfl, rfl, rfl, rfl, rfl⟩

/-- An ended instruction has written nothing, all of its fields, or those it writes before a transaction that can fail. -/
theorem Ends.sameFields {i : Instr} {s t : State} (h : Ends i s t) :
    ∃ u, SameFields t u ∧ (u = s ∨ (Usable i s ∧ u = atEnd i s) ∨ ∃ k, u = atFailure i s k) := by
  cases h with
  | illegal | notReady | divide => exact ⟨s, sameFields_faultedWith _ s, .inl rfl⟩
  | error code line _ _ _ _ _ _ hline =>
    rcases hline with rfl | ⟨rfl, rfl⟩
    · exact ⟨s, sameFields_returned _ s, .inl rfl⟩
    · exact ⟨_, sameFields_returned _ _, .inr (.inr ⟨0, rfl⟩)⟩
  | done _ _ hu => exact ⟨_, sameFields_finish_afterOk i _ _, .inr (.inl ⟨hu, rfl⟩)⟩
  | fails k p => exact ⟨_, sameFields_failWith_emitted i _ p _, .inr (.inr ⟨k, rfl⟩)⟩

/-- A field that an instruction does not write is as before, however the instruction ends. -/
theorem exec_frame {α : Type} {field : State → α} {i : Instr} {s t : State} (ht : exec i s = .next t)
    (hsame : ∀ {u}, SameFields t u → field t = field u) (hend : field (atEnd i s) = field s)
    (hfail : ∀ k, field (atFailure i s k) = field s) : field t = field s := by
  obtain ⟨u, htu, rfl | ⟨_, rfl⟩ | ⟨k, rfl⟩⟩ := (exec_ends ht).sameFields
  · exact hsame htu
  · exact (hsame htu).trans hend
  · exact (hsame htu).trans (hfail k)

/-! ### The lifecycle, `coherent` and the results -/

@[simp] theorem atEnd_results (i : Instr) (s : State) : (atEnd i s).results = s.results := by cases i <;> rfl

theorem atEnd_lifecycle {i : Instr} (h : i ≠ .init) (s : State) : (atEnd i s).lifecycle = s.lifecycle := by
  cases i with
  | init => exact absurd rfl h
  | _ => rfl

theorem atFailure_lifecycle {i : Instr} (h : i ≠ .init) (s : State) (k : Nat) :
    (atFailure i s k).lifecycle = s.lifecycle := by
  cases i with
  | init => exact absurd rfl h
  | _ => rfl

theorem atEnd_coherent {i : Instr} (h : i ≠ .init) (s : State) : (atEnd i s).coherent = s.coherent := by
  cases i with
  | init => exact absurd rfl h
  | _ => rfl

@[simp] theorem atFailure_coherent (i : Instr) (s : State) (k : Nat) : (atFailure i s k).coherent = s.coherent := by
  cases i <;> rfl

@[simp] theorem finish_lifecycle (i : Instr) (s : State) : (finish i s).lifecycle = s.lifecycle := by
  unfold finish
  split <;> rfl

@[simp] theorem finish_coherent (i : Instr) (s : State) : (finish i s).coherent = s.coherent := by
  unfold finish
  split <;> rfl

theorem finish_request {i : Instr} (h : isRequest i = true) (s : State) : finish i s = returned .ok s := if_pos h

theorem finish_part {i : Instr} (h : isRequest i = false) (s : State) : finish i s = s := by simp [finish, h]

theorem failWith_toggle {i : Instr} (h : isToggle i = true) (s : State) :
    failWith i s = faultedWith .backlightBusAbort s := if_pos h

@[simp] theorem failWith_pc (i : Instr) (s : State) : (failWith i s).pc = .idle := by
  unfold failWith
  split <;> rfl

theorem failWith_other {i : Instr} (h : isToggle i = false) (s : State) : failWith i s = busFailed s := by
  simp [failWith, h]

/-- A block is Ready after an init that has written all its fields, or because it was Ready before (R141, R143). -/
theorem Ends.ready_cases {i : Instr} {s t : State} (h : Ends i s t) (ht : t.lifecycle = .ready) :
    (i = .init ∧ t.coherent = true ∧ SameFields t (atEnd .init s)) ∨ (i ≠ .init ∧ s.lifecycle = .ready) := by
  cases h with
  | illegal | notReady | divide => cases ht
  | error _ _ _ _ hn hl => exact .inr ⟨hn, hl⟩
  | done =>
    by_cases hi : i = .init
    · subst hi
      exact .inl ⟨rfl, rfl, sameFields_finish_afterOk _ _ _⟩
    · exact .inr ⟨hi, by simpa [atEnd_lifecycle hi] using ht⟩
  | fails k =>
    by_cases hi : i = .init
    · subst hi
      cases ht
    · cases htog : isToggle i with
      | true =>
        rw [failWith_toggle htog] at ht
        cases ht
      | false =>
        rw [failWith_other htog] at ht
        exact .inr ⟨hi, (atFailure_lifecycle hi s k).symm.trans ht⟩

end Sys2Proof.Machine
end

section
/-! What instructions leave unchanged, how `coherent` moves, and what a request returns: the statements of 10_state.md
about single instructions. -/

namespace Sys2Proof.Machine

open Sys2Proof.Safety

/-! ### Frames -/

/-- Settles O31: no body writes the geometry. -/
theorem geometryNeverChanges : Obligations.GeometryNeverChanges := by
  intro i s t ht
  have hend : (atEnd i s).cols = s.cols ∧ (atEnd i s).rows = s.rows := by cases i <;> exact ⟨rfl, rfl⟩
  have hfail : ∀ k, (atFailure i s k).cols = s.cols ∧ (atFailure i s k).rows = s.rows := by
    cases i <;> exact fun _ => ⟨rfl, rfl⟩
  exact ⟨exec_frame ht (·.cols) hend.1 fun k => (hfail k).1, exec_frame ht (·.rows) hend.2 fun k => (hfail k).2⟩

/-- Settles O32: of all bodies only the toggles' write the flag. -/
theorem onlyTogglesChangeTheBacklight : Obligations.OnlyTogglesChangeTheBacklight := by
  intro i s t ht hon hoff
  cases i with
  | backlightOn => exact absurd rfl hon
  | backlightOff => exact absurd rfl hoff
  | _ => exact exec_frame ht (·.backlight) rfl fun _ => rfl

/-- Settles O33: of all bodies only init's and the mode setters' write `display_mode`. -/
theorem onlyModeSettersChangeTheMode : Obligations.OnlyModeSettersChangeTheMode := by
  intro i s t ht hinit hauto hleft hright
  cases i with
  | init => exact absurd rfl hinit
  | autoscroll on => exact absurd rfl (hauto on)
  | textDirectionLeftToRight => exact absurd rfl hleft
  | textDirectionRightToLeft => exact absurd rfl hright
  | _ => exact exec_frame ht (·.displayMode) rfl fun _ => rfl

/-- Settles O34: of all bodies only init's and the display setters' write `display_control`. -/
theorem onlyDisplaySettersChangeTheControl : Obligations.OnlyDisplaySettersChangeTheControl := by
  intro i s t ht hinit hon hoff
  cases i with
  | init => exact absurd rfl hinit
  | displayOn => exact absurd rfl hon
  | displayOff => exact absurd rfl hoff
  | _ => exact exec_frame ht (·.displayControl) rfl fun _ => rfl

/-- Settles O35: of all bodies only init's and those that place the cursor write `current_line`. -/
theorem onlyCursorRequestsChangeTheLine : Obligations.OnlyCursorRequestsChangeTheLine := by
  intro i s t ht hinit hclear hnext hset hwrap
  cases i with
  | init => exact absurd rfl hinit
  | clear => exact absurd rfl hclear
  | nextLine => exact absurd rfl hnext
  | setCursor col row => exact absurd rfl (hset col row)
  | printWrapped text => exact absurd rfl (hwrap text)
  | _ => exact exec_frame ht (·.currentLine) rfl fun _ => rfl

/-! ### `coherent` -/

/-- However an instruction ends, either it has returned a bus failure and cleared `coherent`, or it has returned none, and
then only init writes `coherent` (10_state.md R35). -/
theorem Ends.coherent_cases {i : Instr} {s t : State} (h : Ends i s t) :
    (t.results = s.results ++ [.err .busFailure] ∧ t.coherent = false) ∨
    (t.results ≠ s.results ++ [.err .busFailure] ∧ (i ≠ .init → t.coherent = s.coherent)) := by
  cases h with
  | illegal | notReady | divide => exact .inr ⟨by simp [faultedWith], fun _ => rfl⟩
  | error _ _ _ _ _ _ _ hcode => exact .inr ⟨by simp [returned, hcode], fun _ => rfl⟩
  | done =>
    refine .inr ⟨?_, fun hi => by simp [atEnd_coherent hi]⟩
    cases hr : isRequest i with
    | true => simp [finish_request hr, returned]
    | false => simp [finish_part hr]
  | fails =>
    cases htog : isToggle i with
    | true =>
      rw [failWith_toggle htog]
      exact .inr ⟨by simp [faultedWith], fun _ => by simp [faultedWith]⟩
    | false =>
      rw [failWith_other htog]
      exact .inl (by simp [busFailed, returned])

/-- Settles O37, from the ends of an instruction and the two ways to be Ready after one. -/
theorem coherentFollowsInitAndFailures : Obligations.CoherentFollowsInitAndFailures := by
  intro i s t ht
  have h := exec_ends ht
  refine ⟨fun hres => ?_, fun hi hready => ?_, fun hi hres => ?_⟩
  · rcases h.coherent_cases with ⟨_, hc⟩ | ⟨hne, _⟩
    · exact hc
    · exact absurd hres hne
  · rcases h.ready_cases hready with ⟨_, hc, _⟩ | ⟨hn, _⟩
    · exact hc
    · exact absurd hi hn
  · rcases h.coherent_cases with ⟨heq, _⟩ | ⟨_, hc⟩
    · exact absurd heq hres
    · exact hc hi

/-! ### The end of a request -/

/-- A request ends with the sequencer idle (10_state.md R21; log entry 9). -/
theorem Ends.idle {i : Instr} {s t : State} (h : Ends i s t) (hr : isRequest i = true) : t.pc = .idle := by
  cases h with
  | illegal | notReady | error | divide => rfl
  | done => rw [finish_request hr]; rfl
  | fails => exact failWith_pc i _

theorem alive_of_ready {s : State} (h : s.lifecycle = .ready) : Alive s := fun r hr => by
  rw [h] at hr
  cases hr

/-- The fields an instruction writes at its end leave a block that is not faulted so. -/
theorem alive_atEnd (i : Instr) {s : State} (h : Alive s) : Alive (atEnd i s) := by
  by_cases hi : i = .init
  · subst hi
    exact alive_of_ready rfl
  · intro r
    rw [atEnd_lifecycle hi]
    exact h r

/-- So do those it has written when a transaction fails. -/
theorem alive_atFailure (i : Instr) {s : State} (h : Alive s) (k : Nat) : Alive (atFailure i s k) := by
  by_cases hi : i = .init
  · subst hi
    exact fun r hr => by cases hr
  · intro r
    rw [atFailure_lifecycle hi]
    exact h r

/-- Settles O41: each end of a request is a fault, which returns nothing, or returns one result. -/
theorem oneResultPerRequest : Obligations.OneResultPerRequest := by
  intro i s t hr ht
  have h := exec_ends ht
  refine ⟨h.idle hr, ?_⟩
  cases h with
  | illegal | notReady | divide => exact .inr ⟨rfl, _, rfl⟩
  | error _ _ _ _ _ hl => exact .inl ⟨alive_of_ready hl, _, rfl⟩
  | done _ ha =>
    rw [finish_request hr]
    exact .inl ⟨alive_atEnd i ha.alive, .ok, by simp [returned]⟩
  | fails k p _ ha =>
    cases htog : isToggle i with
    | true =>
      rw [failWith_toggle htog]
      exact .inr ⟨by simp [faultedWith], _, rfl⟩
    | false =>
      rw [failWith_other htog]
      exact .inl ⟨alive_atFailure i ha.alive k, .err .busFailure, by simp [busFailed, returned]⟩

end Sys2Proof.Machine
end

section
/-! The block's invariant: which values its fields may hold, that every body writes such values, and that every step keeps
the invariant (10_state.md R21, R26, R28, R35, 41_commands.md R124). -/

namespace Sys2Proof.Machine

open Sys2Proof.Safety

/-! ### The values a body writes -/

/-- A value of `current_line`: 0 or a row of the display (10_state.md R26). -/
def IsLine (rows line : Byte) : Prop := line = 0 ∨ line.toNat < rows.toNat

theorem isLine_lineAfter (currentLine rows : Byte) : IsLine rows (lineAfter currentLine rows) := by
  by_cases h : rows = 0
  · exact .inl (by simp [lineAfter, h])
  · exact .inr (lineAfter_lt currentLine rows h)

theorem isLine_cellRow (cols rows : Byte) (i : Nat) : IsLine rows (BitVec.ofNat 8 (cellRow cols rows i)) := by
  have hrows := rows.isLt
  rcases Nat.eq_zero_or_pos rows.toNat with h | h
  · exact .inl (by simp [cellRow, h])
  · have hlt := cellRow_lt cols rows i h
    exact .inr (by rw [BitVec.toNat_ofNat, Nat.mod_eq_of_lt (by omega)]; exact hlt)

theorem isLine_wrappedLine {s : State} (h : IsLine s.rows s.currentLine) (k : Nat) :
    IsLine s.rows (wrappedLine s k) := by
  unfold wrappedLine
  split
  · exact h
  · exact isLine_cellRow _ _ _

/-- Setting or clearing flag bits that are documented leaves the other bits clear (10_state.md R28). -/
theorem assignBits_undocumented {mask undocumented field : Byte} (on : Bool) (hmask : mask &&& undocumented = 0)
    (hfield : field &&& undocumented = 0) : assignBits on mask field &&& undocumented = 0 := by
  cases on with
  | true =>
    show (field ||| mask) &&& undocumented = 0
    rw [BitVec.and_or_distrib_right, hfield, hmask]
    exact BitVec.zero_or
  | false =>
    show (field &&& ~~~mask) &&& undocumented = 0
    rw [BitVec.and_assoc, BitVec.and_comm (~~~mask), ← BitVec.and_assoc, hfield]
    exact BitVec.zero_and

/-- What the invariant asks of the three fields init writes, whatever the lifecycle. -/
structure Documented (s : State) : Prop where
  mode : s.displayMode &&& 0xFC = 0
  control : s.displayControl &&& 0xFB = 0
  line : IsLine s.rows s.currentLine

theorem SameFields.documented {t u : State} (h : SameFields t u) (hu : Documented u) : Documented t := by
  obtain ⟨hmode, hcontrol, hline⟩ := hu
  exact ⟨by rwa [h.displayMode], by rwa [h.displayControl], by rwa [h.rows, h.currentLine]⟩

theorem documented_setMode {s : State} (h : Documented s) (on : Bool) {flag : Byte} (hflag : flag &&& 0xFC = 0) :
    Documented { s with displayMode := assignBits on flag s.displayMode } :=
  ⟨assignBits_undocumented on hflag h.mode, h.control, h.line⟩

theorem documented_setControl {s : State} (h : Documented s) (on : Bool) :
    Documented { s with displayControl := withDisplayOn on s.displayControl } :=
  ⟨h.mode, assignBits_undocumented on (by decide) h.control, h.line⟩

theorem documented_setLine {s : State} (h : Documented s) {line : Byte} (hline : IsLine s.rows line) :
    Documented { s with currentLine := line } :=
  ⟨h.mode, h.control, hline⟩

theorem documented_atEnd_init (s : State) : Documented (atEnd .init s) where
  mode := show (0x02 : Byte) &&& 0xFC = 0 by decide
  control := show (0x04 : Byte) &&& 0xFB = 0 by decide
  line := .inl rfl

theorem documented_atEnd {i : Instr} {s : State} (h : Documented s) (hu : Usable i s) : Documented (atEnd i s) := by
  cases i with
  | init => exact documented_atEnd_init s
  | displayOn => exact documented_setControl h true
  | displayOff => exact documented_setControl h false
  | backlightOn | backlightOff => exact ⟨h.mode, h.control, h.line⟩
  | clear => exact documented_setLine h (.inl rfl)
  | setCursor col row => exact documented_setLine h (.inr hu.1)
  | printWrapped text =>
    refine documented_setLine h ?_
    split
    · exact h.line
    · exact isLine_cellRow _ _ _
  | autoscroll on => exact documented_setMode h on (by decide)
  | textDirectionLeftToRight => exact documented_setMode h true (by decide)
  | textDirectionRightToLeft => exact documented_setMode h false (by decide)
  | nextLine => exact documented_setLine h (isLine_lineAfter _ _)
  | _ => exact h

theorem documented_atFailure {i : Instr} {s : State} (h : Documented s) (hi : i ≠ .init) (k : Nat) :
    Documented (atFailure i s k) := by
  cases i with
  | init => exact absurd rfl hi
  | displayOn => exact documented_setControl h true
  | displayOff => exact documented_setControl h false
  | backlightOn | backlightOff => exact ⟨h.mode, h.control, h.line⟩
  | printWrapped text => exact documented_setLine h (isLine_wrappedLine h.line k)
  | autoscroll on => exact documented_setMode h on (by decide)
  | textDirectionLeftToRight => exact documented_setMode h true (by decide)
  | textDirectionRightToLeft => exact documented_setMode h false (by decide)
  | nextLine => exact documented_setLine h (isLine_lineAfter _ _)
  | _ => exact h

/-! ### The invariant -/

theorem documented_of_inv {s : State} (h : Inv s) (hl : s.lifecycle = .ready) : Documented s :=
  ⟨h.mode hl, h.control hl, h.line hl⟩

/-- A block that an instruction leaves Ready holds documented values: init wrote them, or it was Ready before and the
instruction wrote documented values over documented ones. -/
theorem Ends.documented {i : Instr} {s t : State} (h : Ends i s t) (hs : s.lifecycle = .ready → Documented s)
    (ht : t.lifecycle = .ready) : Documented t := by
  rcases h.ready_cases ht with ⟨_, _, hinit⟩ | ⟨hi, hl⟩
  · exact hinit.documented (documented_atEnd_init s)
  · obtain ⟨u, htu, rfl | ⟨hu, rfl⟩ | ⟨k, rfl⟩⟩ := h.sameFields
    · exact htu.documented (hs hl)
    · exact htu.documented (documented_atEnd (hs hl) hu)
    · exact htu.documented (documented_atFailure (hs hl) hi k)

/-- A request leaves the block Uninitialized only where init fails, and that clears `coherent` (10_state.md R35, R37). -/
theorem Ends.not_coherent_of_uninitialized {i : Instr} {s t : State} (h : Ends i s t) (hr : isRequest i = true)
    (ht : t.lifecycle = .uninitialized) : t.coherent = false := by
  cases h with
  | illegal | notReady | divide => cases ht
  | error _ _ _ _ _ hl => exact absurd (hl.symm.trans ht) (by decide)
  | done _ ha =>
    rw [finish_lifecycle, afterOk_lifecycle] at ht
    by_cases hi : i = .init
    · subst hi
      cases ht
    · have hl : s.lifecycle = .ready := by simpa [Allowed, hr, hi] using ha
      rw [atEnd_lifecycle hi, hl] at ht
      cases ht
  | fails =>
    cases htog : isToggle i with
    | true =>
      rw [failWith_toggle htog] at ht
      cases ht
    | false =>
      rw [failWith_other htog]
      rfl

/-- Every request keeps the invariant. -/
theorem Ends.inv {i : Instr} {s t : State} (h : Ends i s t) (hr : isRequest i = true) (hs : Inv s) : Inv t where
  mode ht := (h.documented (documented_of_inv hs) ht).mode
  control ht := (h.documented (documented_of_inv hs) ht).control
  line ht := (h.documented (documented_of_inv hs) ht).line
  coherence := h.not_coherent_of_uninitialized hr
  idle := h.idle hr

/-- The invariant does not speak of what stands at the host port. -/
theorem inv_withRequests {s : State} (h : Inv s) (requests : List (List Byte)) : Inv { s with requests := requests } :=
  ⟨h.mode, h.control, h.line, h.coherence, h.idle⟩

/-- Settles O47: a step does nothing, or performs one request, and every end of a request meets the invariant. -/
theorem stepKeepsTheInvariant : Obligations.StepKeepsTheInvariant := by
  intro s t hs ht
  rcases step_cases ht with rfl | ⟨i, rest, hr, hends⟩
  · exact hs
  · exact hends.inv hr (inv_withRequests hs rest)

end Sys2Proof.Machine
end

section
/-! Two inits that start in states alike but for the fields without a value before init (10_state.md R36, R37): they go the
same way, and are the same once Ready. -/

namespace Sys2Proof.Machine

open Sys2Proof.Safety

theorem rows_eq_of_eraseUnset {s t : State} (h : eraseUnset s = eraseUnset t) : s.rows = t.rows := by
  show (eraseUnset s).rows = (eraseUnset t).rows
  rw [h]

theorem sameUpTo_go {s t : State} (h : eraseUnset s = eraseUnset t) : SameUpTo eraseUnset (.go s) (.go t) :=
  congrArg Flow.go h

theorem fmtFuncSet_sameUpTo {s t : State} (h : eraseUnset s = eraseUnset t) :
    SameUpTo eraseUnset (fmtFuncSet s) (fmtFuncSet t) := by
  unfold fmtFuncSet
  rw [rows_eq_of_eraseUnset h]
  exact send_sameUpTo erases_eraseUnset _ _ h

theorem fmtHome_sameUpTo {s t : State} (h : eraseUnset s = eraseUnset t) :
    SameUpTo eraseUnset (fmtHome s) (fmtHome t) :=
  (send_sameUpTo erases_eraseUnset _ _ h).andThen fun _ _ h => waitFor_sameUpTo erases_eraseUnset _ h

theorem clearBody_sameUpTo {s t : State} (h : eraseUnset s = eraseUnset t) :
    SameUpTo eraseUnset (clearBody s) (clearBody t) :=
  ((send_sameUpTo erases_eraseUnset _ _ h).andThen fun _ _ h => waitFor_sameUpTo erases_eraseUnset _ h).andThen
    fun _ _ h => sameUpTo_go h

/-- Display control is sent after init has written it, so what the field held before does not show (R143). -/
theorem initDispCtl_sameUpTo {s t : State} (h : eraseUnset s = eraseUnset t) :
    SameUpTo eraseUnset (fmtDispCtl { s with displayControl := initDisplayControl })
      (fmtDispCtl { t with displayControl := initDisplayControl }) :=
  send_sameUpTo erases_eraseUnset (dispCtlByte initDisplayControl) _ h

/-- Entry mode is sent after init has written it, too (R143). -/
theorem initEntry_sameUpTo {s t : State} (h : eraseUnset s = eraseUnset t) :
    SameUpTo eraseUnset (fmtEntry { s with displayMode := initDisplayMode })
      (fmtEntry { t with displayMode := initDisplayMode }) :=
  send_sameUpTo erases_eraseUnset (entryByte initDisplayMode) _ h

theorem configureLcd_sameUpTo {s t : State} (h : eraseUnset s = eraseUnset t) :
    SameUpTo eraseUnset (configureLcd s) (configureLcd t) :=
  ((((fmtFuncSet_sameUpTo h).andThen fun _ _ h => initDispCtl_sameUpTo h).andThen
    fun _ _ h => clearBody_sameUpTo h).andThen fun _ _ h => initEntry_sameUpTo h).andThen
    fun _ _ h => fmtHome_sameUpTo h

/-- Of init's own two writes of the lifecycle and `coherent`, neither depends on the unset fields. -/
theorem initBody_sameUpTo {s t : State} (h : eraseUnset s = eraseUnset t) :
    SameUpTo eraseUnset (initBody s) (initBody t) := by
  have hstart : eraseUnset { s with lifecycle := .uninitialized } = eraseUnset { t with lifecycle := .uninitialized } :=
    congrArg (fun s : State => { s with lifecycle := .uninitialized }) h
  refine ((resetNibbles_sameUpTo erases_eraseUnset hstart).andThen fun _ _ h => configureLcd_sameUpTo h).andThen
    fun _ _ h => sameUpTo_go ?_
  exact congrArg (fun s : State => { s with lifecycle := .ready, coherent := true }) h

/-- The frame at the end of a request does not read the unset fields either. -/
theorem endRequest_sameUpTo {f g : Flow} (h : SameUpTo eraseUnset f g) :
    eraseUnset (endRequest f) = eraseUnset (endRequest g) := by
  have hmap : ∀ f : Flow, eraseUnset (endRequest f) = endRequest (f.map eraseUnset) := fun f => by cases f <;> rfl
  rw [hmap, hmap, h]

theorem execInit_agreeButUnset {s s' t u : State} (h : AgreeButUnset s s') (ht : exec .init s = .next t)
    (hu : exec .init s' = .next u) : AgreeButUnset t u := by
  obtain ⟨_, rfl⟩ := runInit_next ht
  obtain ⟨_, rfl⟩ := runInit_next hu
  exact endRequest_sameUpTo (initBody_sameUpTo (congrArg loadSequence h))

/-- Once the unset fields agree too, nothing tells the states apart. -/
theorem eq_of_agreeButUnset {t u : State} (h : AgreeButUnset t u) (hmode : t.displayMode = u.displayMode)
    (hcontrol : t.displayControl = u.displayControl) (hline : t.currentLine = u.currentLine) : t = u := by
  have hrestore : ∀ s : State, s = { eraseUnset s with
      displayMode := s.displayMode, displayControl := s.displayControl, currentLine := s.currentLine } := fun _ => rfl
  rw [hrestore t, hrestore u, show eraseUnset t = eraseUnset u from h, hmode, hcontrol, hline]

/-- An init that ends Ready has written the unset fields, with values that do not depend on the state before (R143). -/
theorem execInit_ready_fields {s t : State} (ht : exec .init s = .next t) (hl : t.lifecycle = .ready) :
    t.displayMode = 0x02 ∧ t.displayControl = 0x04 ∧ t.currentLine = 0 := by
  rcases (exec_ends ht).ready_cases hl with ⟨_, _, hf⟩ | ⟨hn, _⟩
  · exact ⟨hf.displayMode, hf.displayControl, hf.currentLine⟩
  · exact absurd rfl hn

/-- A request other than init in an uninitialized block faults, for a reason that depends on the request alone. -/
theorem Ends.faultedWith_of_uninitialized {i : Instr} {s t : State} (h : Ends i s t) (hr : isRequest i = true)
    (hi : i ≠ .init) (hl : s.lifecycle = .uninitialized) :
    t = faultedWith (if isIllegal i = true then .illegalRequest else .notReady) s := by
  have hready : s.lifecycle ≠ .ready := by rw [hl]; decide
  cases h with
  | illegal hill => rw [if_pos hill]
  | notReady hill => rw [if_neg (by simp [hill])]
  | error _ _ _ _ _ h | divide _ _ h => exact absurd h hready
  | done _ ha | fails _ _ _ ha => exact absurd (by simpa [Allowed, hr, hi] using ha) hready

/-- Settles O44: init writes each unset field before it sends it, and every other request faults. -/
theorem unsetFieldsAreNeverRead : Obligations.UnsetFieldsAreNeverRead := by
  intro i s t u mode control line hr hl ht hu
  by_cases hi : i = .init
  · subst hi
    have hstart : AgreeButUnset s { s with displayMode := mode, displayControl := control, currentLine := line } := rfl
    have hagree : AgreeButUnset t u := execInit_agreeButUnset hstart ht hu
    refine ⟨hagree, fun hready => ?_⟩
    have hready' : u.lifecycle = .ready := (congrArg State.lifecycle hagree).symm.trans hready
    obtain ⟨hmode, hcontrol, hline⟩ := execInit_ready_fields ht hready
    obtain ⟨hmode', hcontrol', hline'⟩ := execInit_ready_fields hu hready'
    exact eq_of_agreeButUnset hagree (hmode.trans hmode'.symm) (hcontrol.trans hcontrol'.symm)
      (hline.trans hline'.symm)
  · obtain rfl := (exec_ends ht).faultedWith_of_uninitialized hr hi hl
    obtain rfl := (exec_ends hu).faultedWith_of_uninitialized hr hi hl
    exact ⟨rfl, fun h => nomatch h⟩

end Sys2Proof.Machine
end

section
/-! The expander's port (10_state.md R38): the frames around a body do not read it, so no instruction does. -/

namespace Sys2Proof.Machine

open Sys2Proof.Safety

/-- From two states that differ in the port alone, the run ends in two that differ in the port alone, and there the ports
agree or are both the old ones. -/
def RunPortBlind (run : State → Host.Outcome State Fault Refusal) : Prop :=
  ∀ s t p, run s = .next t →
    ∃ q, run (s.withPort p) = .next (t.withPort q) ∧ (q = t.port ∨ (q = p ∧ t.port = s.port))

theorem endRequest_withPort (f : Flow) (p : Byte) : endRequest (f.withPort p) = (endRequest f).withPort p := by
  cases f <;> rfl

theorem endRequest_port (f : Flow) : (endRequest f).port = f.last.port := by cases f <;> rfl

/-- A body that goes from a state to an end, framed as a request. -/
theorem PortBlind.endRequest {body : State → Flow} (hb : PortBlind body) (s : State) (p : Byte) :
    ∃ q, Machine.endRequest (body (loadSequence (s.withPort p))) =
        (Machine.endRequest (body (loadSequence s))).withPort q ∧
      (q = (Machine.endRequest (body (loadSequence s))).port ∨
        (q = p ∧ (Machine.endRequest (body (loadSequence s))).port = s.port)) := by
  obtain ⟨q, hq, hport⟩ := hb (loadSequence s) p
  refine ⟨q, ?_, by rw [endRequest_port]; exact hport⟩
  rw [← endRequest_withPort, ← hq]
  rfl

theorem runRequest_portBlind {body : State → Flow} (hb : PortBlind body) : RunPortBlind (runRequest body) := by
  intro s t p ht
  rcases runRequest_next ht with ⟨hl, rfl⟩ | ⟨hl, rfl⟩
  · exact ⟨p, runRequest_uninitialized body _ hl, .inr ⟨rfl, rfl⟩⟩
  · obtain ⟨q, hq, hport⟩ := hb.endRequest s p
    exact ⟨q, by rw [runRequest_ready body (s.withPort p) hl, hq], hport⟩

theorem runInit_portBlind {body : State → Flow} (hb : PortBlind body) : RunPortBlind (runInit body) := by
  intro s t p ht
  obtain ⟨hs, rfl⟩ := runInit_next ht
  obtain ⟨q, hq, hport⟩ := hb.endRequest s p
  exact ⟨q, by rw [runInit_alive body (s.withPort p) hs, hq], hport⟩

theorem runIllegal_portBlind : RunPortBlind runIllegal := by
  intro s t p ht
  obtain ⟨hs, rfl⟩ := runIllegal_next ht
  exact ⟨p, runIllegal_alive _ hs, .inr ⟨rfl, rfl⟩⟩

/-- The end of a part that is performed on its own (log entry 8). -/
def endPart : Flow → State
  | .go s => s
  | .raise e s => returnResult (.err e) s
  | .abort r s => enterFault r s

theorem runPart_alive (body : State → Flow) (s : State) (h : Alive s) : runPart body s = .next (endPart (body s)) := by
  unfold runPart
  split
  · next r hl => exact absurd hl (h r)
  · cases body s <;> rfl

theorem endPart_withPort (f : Flow) (p : Byte) : endPart (f.withPort p) = (endPart f).withPort p := by cases f <;> rfl

theorem endPart_port (f : Flow) : (endPart f).port = f.last.port := by cases f <;> rfl

theorem runPart_portBlind {body : State → Flow} (hb : PortBlind body) : RunPortBlind (runPart body) := by
  intro s t p ht
  have hs : Alive s := (runPart_next ht).1
  obtain rfl : endPart (body s) = t := by simpa [runPart_alive body s hs] using ht
  obtain ⟨q, hq, hport⟩ := hb s p
  refine ⟨q, ?_, by rw [endPart_port]; exact hport⟩
  rw [runPart_alive body (s.withPort p) hs, hq, endPart_withPort]

theorem defineCustomGlyph_portBlind (slot : Byte) (pattern : List Byte) :
    RunPortBlind (exec (.defineCustomGlyph slot pattern)) := by
  by_cases hlen : pattern.length = glyphBytes
  · have hrun : exec (.defineCustomGlyph slot pattern) = runRequest (defineCustomGlyphBody slot pattern) :=
      funext fun _ => if_pos hlen
    exact hrun ▸ runRequest_portBlind (defineCustomGlyphBody_portBlind slot pattern)
  · have hrun : exec (.defineCustomGlyph slot pattern) = runIllegal := funext fun _ => if_neg hlen
    exact hrun ▸ runIllegal_portBlind

/-- No instruction reads the port. -/
theorem exec_portBlind (i : Instr) : RunPortBlind (exec i) := by
  cases i with
  | init => exact runInit_portBlind initBody_portBlind
  | displayOn | displayOff => exact runRequest_portBlind (setDisplayControlBody_portBlind _)
  | backlightOn | backlightOff => exact runRequest_portBlind (backlightBody_portBlind _)
  | clear => exact runRequest_portBlind clearBody_portBlind
  | setCursor col row => exact runRequest_portBlind (setCursorBody_portBlind col row)
  | print ch => exact runRequest_portBlind (send_portBlind ch true)
  | printText text => exact runRequest_portBlind (dataBytes_portBlind text)
  | printWrapped text => exact runRequest_portBlind (printWrappedFrom_portBlind text 0)
  | autoscroll | textDirectionLeftToRight | textDirectionRightToLeft =>
    exact runRequest_portBlind (setDisplayModeBody_portBlind _)
  | scrollLeft | scrollRight => exact runRequest_portBlind (send_portBlind _ _)
  | home => exact runRequest_portBlind fmtHome_portBlind
  | nextLine => exact runRequest_portBlind nextLineBody_portBlind
  | defineCustomGlyph slot pattern => exact defineCustomGlyph_portBlind slot pattern
  | illegalRequest bytes => exact runIllegal_portBlind
  | lcdClear => exact runPart_portBlind fmtClear_portBlind
  | lcdHome => exact runPart_portBlind fmtHome_portBlind
  | lcdEntry | lcdDispCtl | lcdShift | lcdFuncSet | lcdSetCgram | lcdSetDdram | lcdData =>
    exact runPart_portBlind (send_portBlind _ _)
  | rawNibble3 | rawNibble2 => exact runPart_portBlind (rawNibble_portBlind _)
  | frameEnHigh | frameEnLow | frameRawLatch | tx => exact runPart_portBlind (perform_portBlind _)

/-- Settles O45: no body and no frame reads the port. -/
theorem portIsNeverRead : Obligations.PortIsNeverRead := by
  intro i s t port ht
  obtain ⟨q, hq, hport⟩ := exec_portBlind i s t port ht
  exact ⟨t.withPort q, hq, rfl, hport⟩

end Sys2Proof.Machine
end

section
/-! One step (10_state.md R21, R40, 60_exceptions.md R219): what the host port gives a block that is not faulted. -/

namespace Sys2Proof.Machine

open Sys2Proof.Safety

theorem fetch_record {s : State} (hs : Alive s) {bytes : List Byte} {rest : List (List Byte)}
    (h : s.requests = bytes :: rest) : fetch s = .record bytes { s with requests := rest } := by
  cases hl : s.lifecycle with
  | faulted r => exact absurd hl (hs r)
  | uninitialized | ready => simp only [fetch, hl, h]

theorem fetch_idle {s : State} (hs : Alive s) (h : s.requests = []) : fetch s = .idle := by
  cases hl : s.lifecycle with
  | faulted r => exact absurd hl (hs r)
  | uninitialized | ready => simp only [fetch, hl, h]

/-- Settles O3, from what the host port gives. -/
theorem stepPerformsNextRecord : Obligations.StepPerformsNextRecord := by
  intro s hs
  refine ⟨fun bytes rest h => ?_, fun h => ?_⟩
  · simp only [step, fetch_record hs h]
  · simp only [step, fetch_idle hs h]

end Sys2Proof.Machine
end

section
/-! The trace invariant: RW is clear in every frame byte, and every enable pulse is timed (20_memory.md R46,
40_transmit.md R103, 70_reset_and_hazards.md R235, R236). A request adds blocks of events that meet it on their own. -/

namespace Sys2Proof.Machine

open Sys2Proof.Safety

/-! ### Traces after traces -/

theorem everyFrame_nil (p : Byte → Prop) : EveryFrame p [] := fun _ _ h => nomatch h

theorem everyFrame_wait {p : Byte → Prop} {t : Nat} {e : List Event} (h : EveryFrame p e) :
    EveryFrame p (.wait t :: e) :=
  fun v a hv => h v a (by simpa using hv)

theorem everyFrame_tx {p : Byte → Prop} {v : Byte} {a : Answer} {e : List Event} (hv : p v) (h : EveryFrame p e) :
    EveryFrame p (.tx v a :: e) := by
  intro w b hw
  rcases List.mem_cons.mp hw with heq | hw
  · cases heq
    exact hv
  · exact h w b hw

theorem everyFrame_append {p : Byte → Prop} {a b : List Event} (ha : EveryFrame p a) (hb : EveryFrame p b) :
    EveryFrame p (a ++ b) :=
  fun v x h => (List.mem_append.mp h).elim (ha v x) (hb v x)

/-- Later events do not undo a complete pulse. -/
theorem pulseComplete_append {v : Byte} {a : List Event} (h : pulseComplete v a = true) (b : List Event) :
    pulseComplete v (a ++ b) = true := by
  unfold pulseComplete at h
  split at h
  · exact h
  · exact h
  · cases h

theorem pulsesTimed_append {a b : List Event} (ha : pulsesTimed a = true) (hb : pulsesTimed b = true) :
    pulsesTimed (a ++ b) = true := by
  induction a with
  | nil => exact hb
  | cons x a ih =>
    match x with
    | .wait _ => exact ih ha
    | .tx _ .fail => exact ih ha
    | .tx v .ok =>
      simp only [List.cons_append, pulsesTimed, Bool.and_eq_true, Bool.or_eq_true] at ha ⊢
      obtain ⟨hv, ha⟩ := ha
      exact ⟨hv.imp_right fun h => pulseComplete_append h b, ih ha⟩

/-! ### Blocks -/

theorem lowFrame_lightImage (light : Bool) : LowFrame light (lightImage light) := by
  cases light <;> simp [LowFrame, lightImage]

theorem LowFrame.rwLow {light : Bool} {f : Byte} (h : LowFrame light f) : f.getLsbD 1 = false := h.1

theorem LowFrame.enLow {light : Bool} {f : Byte} (h : LowFrame light f) : f.getLsbD 2 = false := h.2.1

/-- Setting EN leaves RW clear. -/
theorem LowFrame.rwLow_enabled {light : Bool} {f : Byte} (h : LowFrame light f) : (f ||| 0x04).getLsbD 1 = false := by
  rw [BitVec.getLsbD_or, h.rwLow]
  rfl

/-- The enable-high byte of a nibble frame with EN cleared again is the enable-low byte (R103). -/
theorem LowFrame.clear_enabled {light : Bool} {f : Byte} (h : LowFrame light f) : (f ||| 0x04) &&& 0xFB = f := by
  have hclear : ∀ b : Byte, b.getLsbD 2 = false → (b ||| 0x04) &&& 0xFB = b := by decide
  exact hclear f h.enLow

/-- A byte with EN clear opens no pulse. -/
theorem pulsesTimed_low {light : Bool} {f : Byte} (h : LowFrame light f) (e : List Event) :
    pulsesTimed (.tx f .ok :: e) = pulsesTimed e := by
  simp only [pulsesTimed, h.enLow, Bool.not_false, Bool.true_or, Bool.true_and]

/-- A byte whose pulse is complete is timed. -/
theorem pulsesTimed_complete {v : Byte} {e : List Event} (hpulse : pulseComplete v e = true)
    (h : pulsesTimed e = true) : pulsesTimed (.tx v .ok :: e) = true := by
  simp only [pulsesTimed, hpulse, h, Bool.or_true, Bool.and_self]

/-- RW is clear in every block. -/
theorem Blocks.rwLow {light : Bool} {e : List Event} (h : Blocks light e) :
    EveryFrame (fun v => v.getLsbD 1 = false) e := by
  induction h with
  | nil => exact everyFrame_nil _
  | wait _ ih => exact everyFrame_wait ih
  | latch _ ih => exact everyFrame_tx (lowFrame_lightImage light).rwLow ih
  | nibble hf _ ih =>
    exact everyFrame_tx hf.rwLow_enabled (everyFrame_wait (everyFrame_tx hf.rwLow (everyFrame_wait ih)))
  | latchFails => exact everyFrame_tx (lowFrame_lightImage light).rwLow (everyFrame_nil _)
  | highFails hf => exact everyFrame_tx hf.rwLow_enabled (everyFrame_nil _)
  | lowFails hf =>
    exact everyFrame_tx hf.rwLow_enabled (everyFrame_wait (everyFrame_tx hf.rwLow (everyFrame_nil _)))

/-- Every pulse is timed in every block: a nibble frame holds its own waits, and a failure leaves nothing to time. -/
theorem Blocks.timed {light : Bool} {e : List Event} (h : Blocks light e) : pulsesTimed e = true := by
  induction h with
  | nil => rfl
  | wait _ ih => exact ih
  | latch _ ih => rwa [pulsesTimed_low (lowFrame_lightImage light)]
  | @nibble f e hf _ ih =>
    have hpulse : pulseComplete (f ||| 0x04) (.wait 1 :: .tx f .ok :: .wait 50 :: e) = true := by
      simp only [pulseComplete, hf.clear_enabled, BEq.rfl, Nat.le_refl, decide_true, Bool.and_self]
    exact pulsesTimed_complete hpulse ((pulsesTimed_low hf (.wait 50 :: e)).trans ih)
  | latchFails | highFails => rfl
  | @lowFails f hf =>
    have hpulse : pulseComplete (f ||| 0x04) [.wait 1, .tx f .fail] = true := by
      simp only [pulseComplete, hf.clear_enabled, BEq.rfl, Nat.le_refl, decide_true, Bool.and_self]
    exact pulsesTimed_complete hpulse rfl

/-! ### The invariant -/

/-- A trace that meets the invariant still does after blocks. -/
theorem traceInv_of_blocks {light : Bool} {s t : State} {evs : List Event} (hs : TraceInv s)
    (ht : t.trace = s.trace ++ evs) (hb : Blocks light evs) : TraceInv t where
  rwLow := ht ▸ everyFrame_append hs.rwLow hb.rwLow
  timed := ht ▸ pulsesTimed_append hs.timed hb.timed

/-- Settles O49: a step does nothing, or adds the blocks of one request. -/
theorem stepKeepsTheTraceInvariant : Obligations.StepKeepsTheTraceInvariant := by
  intro s t hs ht
  rcases step_cases ht with rfl | ⟨i, rest, hr, hends⟩
  · exact hs
  · obtain ⟨evs, htr⟩ := hends.trace_exists
    have hs' : TraceInv { s with requests := rest } := ⟨hs.rwLow, hs.timed⟩
    exact traceInv_of_blocks hs' htr (blocks_of_trace hr hends htr)

end Sys2Proof.Machine
end

section
/-! What an instruction leaves of the host port, the bus and the history (10_state.md R38, 20_memory.md R56, R60, R66,
R67): only events touch them, and the frames around a body only add a result. -/

namespace Sys2Proof.Machine

open Sys2Proof.Safety

/-- The state `t` follows `s` by the events `evs`: nothing is taken from the host port, nothing of the history is lost,
each transaction takes one answer and one draw, and the port holds a value the events allow. -/
structure Follows (evs : List Event) (s t : State) : Prop where
  requests : t.requests = s.requests
  results : s.results <+: t.results
  trace : t.trace = s.trace ++ evs
  answers : t.answers = s.answers.drop (txCount evs)
  draws : t.draws = s.draws + txCount evs
  port : t.port ∈ portsAfter evs s.port

/-! ### Field writes and results, without events -/

theorem follows_nil {s t : State} (requests : t.requests = s.requests) (results : s.results <+: t.results)
    (trace : t.trace = s.trace) (answers : t.answers = s.answers) (draws : t.draws = s.draws) (port : t.port = s.port) :
    Follows [] s t :=
  ⟨requests, results, by rw [trace, List.append_nil], answers, draws, List.mem_singleton.mpr port⟩

theorem follows_faultedWith (r : FaultReason) (s : State) : Follows [] s (faultedWith r s) :=
  follows_nil rfl List.prefix_rfl rfl rfl rfl rfl

theorem follows_returned (r : Result) (s : State) : Follows [] s (returned r s) :=
  follows_nil rfl (List.prefix_append _ _) rfl rfl rfl rfl

theorem follows_busFailed (s : State) : Follows [] s (busFailed s) :=
  follows_nil rfl (List.prefix_append _ _) rfl rfl rfl rfl

theorem follows_atEnd (i : Instr) (s : State) : Follows [] s (atEnd i s) := by
  cases i <;> exact follows_nil rfl List.prefix_rfl rfl rfl rfl rfl

theorem follows_atFailure (i : Instr) (s : State) (k : Nat) : Follows [] s (atFailure i s k) := by
  cases i <;> exact follows_nil rfl List.prefix_rfl rfl rfl rfl rfl

theorem follows_finish (i : Instr) (s : State) : Follows [] s (finish i s) := by
  unfold finish
  split
  · exact follows_returned .ok s
  · exact follows_nil rfl List.prefix_rfl rfl rfl rfl rfl

theorem follows_failWith (i : Instr) (s : State) : Follows [] s (failWith i s) := by
  unfold failWith
  split
  · exact follows_faultedWith _ s
  · exact follows_busFailed s

/-! ### Events between them -/

theorem follows_emitted {evs : List Event} {p : Byte} {s : State} (hp : p ∈ portsAfter evs s.port) :
    Follows evs s (emitted evs p s) :=
  ⟨rfl, List.prefix_rfl, rfl, rfl, rfl, hp⟩

theorem follows_afterOk {evs : List Event} (hok : AllOk evs) (s : State) : Follows evs s (afterOk evs s) :=
  follows_emitted (by rw [portsAfter_allOk evs s.port hok]; exact List.mem_singleton.mpr rfl)

/-- A port value that the first events allow, and then one that the others allow from there. -/
theorem mem_portsAfter_append {a b : List Event} {o p q : Byte} (hp : p ∈ portsAfter a o) (hq : q ∈ portsAfter b p) :
    q ∈ portsAfter (a ++ b) o := by
  induction a generalizing o with
  | nil =>
    obtain rfl := List.mem_singleton.mp hp
    exact hq
  | cons x a ih =>
    match x with
    | .wait _ => exact ih hp
    | .tx _ .ok => exact ih hp
    | .tx _ .fail => exact List.mem_append.mpr ((List.mem_append.mp hp).imp ih ih)

theorem Follows.trans {a b : List Event} {s t u : State} (h : Follows a s t) (h' : Follows b t u) :
    Follows (a ++ b) s u where
  requests := h'.requests.trans h.requests
  results := h.results.trans h'.results
  trace := by rw [h'.trace, h.trace, List.append_assoc]
  answers := by rw [h'.answers, h.answers, List.drop_drop, txCount_append]
  draws := by rw [h'.draws, h.draws, txCount_append, Nat.add_assoc]
  port := mem_portsAfter_append h.port h'.port

/-- However an instruction ends, it has written fields, made events and perhaps returned a result, in this order. -/
theorem Ends.follows {i : Instr} {s t : State} (h : Ends i s t) : ∃ evs, Follows evs s t := by
  cases h with
  | illegal | notReady | divide => exact ⟨[], follows_faultedWith _ s⟩
  | error code line =>
    have hline : Follows [] s { s with currentLine := line } := follows_nil rfl List.prefix_rfl rfl rfl rfl rfl
    exact ⟨[], hline.trans (follows_returned _ _)⟩
  | done _ _ hu =>
    have hevs := follows_afterOk (instrEvents_allOk i s hu) (atEnd i s)
    exact ⟨_, ((follows_atEnd i s).trans hevs).trans (follows_finish i _)⟩
  | fails k p _ _ _ _ _ hp =>
    have hwrite := follows_atFailure i s k
    have hport : (atFailure i s k).port = s.port := List.mem_singleton.mp hwrite.port
    have hevs := follows_emitted (s := atFailure i s k) (hport ▸ hp)
    exact ⟨_, (hwrite.trans hevs).trans (follows_failWith i _)⟩

/-- Settles O39, from the ends of an instruction. -/
theorem historyOnlyGrows : Obligations.HistoryOnlyGrows := by
  intro i s t ht
  obtain ⟨evs, h⟩ := (exec_ends ht).follows
  exact ⟨h.requests, h.results, evs, h.trace, h.answers, h.draws, h.port⟩

end Sys2Proof.Machine
end

section
/-! Decoding and encoding are inverse in every layer (30_encoding.md R70 to R76, R80, R84): what each layer's decoder
accepts, it accepts in one way, and no bit is dropped. -/

namespace Sys2Proof

/-! ### Decoding an encoding -/

theorem decodeRequest_illegalRequest {bytes : List Byte} (h : (Instr.illegalRequest bytes).wf = true) :
    decodeRequest bytes = .illegalRequest bytes :=
  decodeRequest_illegal bytes (by simpa [Instr.wf] using h)

theorem decodeArgs_glyph (slot : Byte) {pattern : List Byte} (h : pattern.length = 8) :
    decodeArgs 0x12 (slot :: pattern) = some (.defineCustomGlyph slot pattern) := by
  show (if pattern.length = 8 then some (Instr.defineCustomGlyph slot pattern) else none) = _
  rw [if_pos h]

theorem decodeCommand_setCgram (slot : BitVec 3) :
    decodeCommand (0x40 ||| (slot.zeroExtend 8 <<< 3)) = .ok (.lcdSetCgram slot) := by
  revert slot; decide

theorem decodeCommand_setDdram (addr : BitVec 7) :
    decodeCommand (0x80 ||| addr.zeroExtend 8) = .ok (.lcdSetDdram addr) := by
  revert addr; decide

theorem decodeEnHigh_frameByte (n : Nibble) (light rs : Bool) :
    decodeEnHigh (frameByte n light true rs) = .ok (.frameEnHigh n light rs) := by
  revert n light rs; decide

theorem decodeEnLow_frameByte (n : Nibble) (light rs : Bool) :
    decodeEnLow (frameByte n light false rs) = .ok (.frameEnLow n light rs) := by
  revert n light rs; decide

/-- Settles O4: a record by its code, an HD44780 byte by its highest set bit, a frame byte by its position. -/
theorem decodeOfEncode : Obligations.DecodeOfEncode := by
  intro i hw
  cases i with
  | autoscroll enable => cases enable <;> rfl
  | defineCustomGlyph slot pattern =>
    exact congrArg Except.ok (decodeRequest_cons (decodeArgs_glyph slot (by simpa [Instr.wf] using hw)))
  | illegalRequest bytes => exact congrArg Except.ok (decodeRequest_illegalRequest hw)
  | lcdEntry dir auto => cases dir <;> cases auto <;> rfl
  | lcdDispCtl disp cursor blink => cases disp <;> cases cursor <;> cases blink <;> rfl
  | lcdShift move right => cases move <;> cases right <;> rfl
  | lcdFuncSet eight twoLine font => cases eight <;> cases twoLine <;> cases font <;> rfl
  | lcdSetCgram slot => exact decodeCommand_setCgram slot
  | lcdSetDdram addr => exact decodeCommand_setDdram addr
  | frameEnHigh n light rs => exact decodeEnHigh_frameByte n light rs
  | frameEnLow n light rs => exact decodeEnLow_frameByte n light rs
  | frameRawLatch light => cases light <;> rfl
  | _ => rfl

/-! ### Encoding a decoding -/

/-- The instruction is well formed and is encoded in this layer as these bytes. -/
def EncodesTo (layer : Layer) (bytes : List Byte) (i : Instr) : Prop := encode i = (layer, bytes) ∧ i.wf = true

/-- A decoder's answer, if it is an instruction, is encoded as the bytes that were decoded. -/
def Faithful (layer : Layer) (bytes : List Byte) (answer : Except DecodeError Instr) : Bool :=
  match answer with
  | .ok i => decide (encode i = (layer, bytes)) && i.wf
  | .error _ => true

theorem encodesTo_of_faithful {layer : Layer} {bytes : List Byte} {answer : Except DecodeError Instr} {i : Instr}
    (h : Faithful layer bytes answer = true) (hi : answer = .ok i) : EncodesTo layer bytes i := by
  subst hi
  simpa [Faithful, EncodesTo] using h

theorem decodeCommand_faithful (b : Byte) : Faithful .command [b] (decodeCommand b) = true := by revert b; decide

theorem decodeEnHigh_faithful (b : Byte) : Faithful .enHigh [b] (decodeEnHigh b) = true := by revert b; decide

theorem decodeEnLow_faithful (b : Byte) : Faithful .enLow [b] (decodeEnLow b) = true := by revert b; decide

theorem decodeRawNibble_faithful (b : Byte) : Faithful .rawNibble [b] (decodeRawNibble b) = true := by revert b; decide

theorem decodeRawLatch_faithful (b : Byte) : Faithful .rawLatch [b] (decodeRawLatch b) = true := by revert b; decide

theorem decodeBare_encodesTo {code : Byte} {i : Instr} (h : decodeBare code = some i) :
    EncodesTo .request [code] i := by
  have hall : ∀ code : Byte, (decodeBare code).all (fun i => Faithful .request [code] (.ok i)) = true := by decide
  have hi := hall code
  rw [h, Option.all_some] at hi
  exact encodesTo_of_faithful hi rfl

/-- A code with arguments that are a request is encoded as that code and those arguments. -/
theorem decodeArgs_encodesTo {code : Byte} {args : List Byte} {i : Instr} (h : decodeArgs code args = some i) :
    EncodesTo .request (code :: args) i := by
  unfold decodeArgs at h
  split at h
  next h7 =>
    split at h <;> cases h
    exact ⟨by rw [h7]; rfl, rfl⟩
  split at h
  next h8 =>
    split at h <;> cases h
    exact ⟨by rw [h8]; rfl, rfl⟩
  split at h
  next h9 =>
    cases h
    exact ⟨by rw [h9]; rfl, rfl⟩
  split at h
  next hA =>
    cases h
    exact ⟨by rw [hA]; rfl, rfl⟩
  split at h
  next hB =>
    split at h
    · split at h
      next hon =>
        cases h
        exact ⟨by rw [hB, hon]; rfl, rfl⟩
      split at h <;> cases h
      next hoff => exact ⟨by rw [hB, hoff]; rfl, rfl⟩
    · cases h
  split at h
  next hG =>
    split at h
    · split at h <;> cases h
      next hlen => exact ⟨by rw [hG]; rfl, by simp [Instr.wf, hlen]⟩
    · cases h
  split at h
  · exact decodeBare_encodesTo h
  · cases h

/-- Every record is the encoding of what it decodes to, also where it is no request (R84). -/
theorem decodeRequest_encodesTo (bytes : List Byte) : EncodesTo .request bytes (decodeRequest bytes) := by
  cases hl : legalRequest bytes with
  | false =>
    rw [decodeRequest_illegal bytes hl]
    exact ⟨rfl, by simp [Instr.wf, hl]⟩
  | true =>
    cases bytes with
    | nil => cases hl
    | cons code args =>
      obtain ⟨i, hi⟩ := Option.isSome_iff_exists.mp ((decodeArgs_isSome code args).trans hl)
      rw [decodeRequest_cons hi]
      exact decodeArgs_encodesTo hi

/-- A layer of single bytes decodes nothing else. -/
theorem decode_singleByte {layer : Layer} {bytes : List Byte} {i : Instr} (hr : layer ≠ .request)
    (ht : layer ≠ .transaction) (h : decode layer bytes = .ok i) : ∃ b, bytes = [b] := by
  match bytes with
  | [b] => exact ⟨b, rfl⟩
  | [] | _ :: _ :: _ => cases layer <;> contradiction

theorem decodeTransaction_encodesTo {bytes : List Byte} {i : Instr} (h : decode .transaction bytes = .ok i) :
    EncodesTo .transaction bytes i := by
  simp only [decode] at h
  split at h
  · split at h <;> cases h
    next hlead => exact ⟨by rw [hlead]; rfl, rfl⟩
  · cases h

/-- Settles O5, layer by layer. -/
theorem encodeOfDecode : Obligations.EncodeOfDecode := by
  intro layer bytes i h
  by_cases hr : layer = .request
  · subst hr
    cases h
    exact decodeRequest_encodesTo bytes
  by_cases ht : layer = .transaction
  · subst ht
    exact decodeTransaction_encodesTo h
  obtain ⟨b, rfl⟩ := decode_singleByte hr ht h
  cases layer with
  | request => exact absurd rfl hr
  | transaction => exact absurd rfl ht
  | data => cases h; exact ⟨rfl, rfl⟩
  | command => exact encodesTo_of_faithful (decodeCommand_faithful b) h
  | rawNibble => exact encodesTo_of_faithful (decodeRawNibble_faithful b) h
  | enHigh => exact encodesTo_of_faithful (decodeEnHigh_faithful b) h
  | enLow => exact encodesTo_of_faithful (decodeEnLow_faithful b) h
  | rawLatch => exact encodesTo_of_faithful (decodeRawLatch_faithful b) h

end Sys2Proof
end

section
/-! Words of the encoding tables, and the records that are no request (30_encoding.md R71, R72, R84). -/

namespace Sys2Proof.Machine

open Sys2Proof.Safety

/-- Settles O2: the decoder evaluated on each word. -/
theorem tabulatedWordsDecode : Obligations.TabulatedWordsDecode := by
  unfold Obligations.TabulatedWordsDecode
  decide

/-- A code without arguments is legal exactly when it is assigned and none are given (R71). -/
theorem legalArgs_bare {code : Byte} (h : takesArgs code = false) (args : List Byte) :
    legalArgs code args = ((decide (1 ≤ code.toNat) && decide (code.toNat ≤ 0x12)) && args.isEmpty) := by
  simp only [takesArgs, Bool.or_eq_false_iff] at h
  obtain ⟨⟨⟨⟨⟨h7, h8⟩, h9⟩, hA⟩, hB⟩, hG⟩ := h
  simp only [legalArgs, h7, h8, h9, hA, hB, hG, Bool.or_self, Bool.false_eq_true, if_false]

theorem takesArgs_unassigned {code : Byte} (h : code = 0x00 ∨ 0x13 ≤ code.toNat) : takesArgs code = false := by
  revert code; decide

/-- No arguments make an unassigned code legal (R84). -/
theorem legalArgs_unassigned {code : Byte} (h : code = 0x00 ∨ 0x13 ≤ code.toNat) (args : List Byte) :
    legalArgs code args = false := by
  rw [legalArgs_bare (takesArgs_unassigned h)]
  rcases h with rfl | h
  · rfl
  · simp [Nat.not_le.mpr h]

/-- What is turned away as no request faults, with no event (R84, R204). -/
theorem runIllegal_faultedWith {s : State} (hs : Alive s) : runIllegal s = .next (faultedWith .illegalRequest s) :=
  runIllegal_alive s hs

/-- A glyph pattern of another length than 8 is turned away (R72, R84). -/
theorem exec_defineCustomGlyph_illegal (slot : Byte) {pattern : List Byte} (h : pattern.length ≠ 8) (s : State) :
    exec (.defineCustomGlyph slot pattern) s = runIllegal s := if_neg h

/-- Settles O6. -/
theorem illegalRecordsFault : Obligations.IllegalRecordsFault := by
  refine ⟨fun code args h => legalArgs_unassigned h args, decodeRequest_illegal, fun _ _ hs => runIllegal_faultedWith hs,
    fun slot pattern s hs hlen => ?_⟩
  rw [exec_defineCustomGlyph_illegal slot hlen]
  exact runIllegal_faultedWith hs

end Sys2Proof.Machine
end

section
/-! The rows of the lower layers, each performed as a part of a request (log entry 8): their events, with the bytes written
out from the tables of 30_encoding.md R75, R76 and R80. -/

namespace Sys2Proof.Machine

open Sys2Proof.Safety

/-! ### Frame bytes: the nibble stands on bits 7:4 (R74) -/

theorem frame_nibble_high (n : Nibble) (light rs : Bool) :
    frame light (nibbleData n) rs true = (n ++ (0 : Nibble)) ||| lightImage light ||| 0x04 ||| modeBit rs := by
  revert n light rs; decide

theorem frame_nibble_low (n : Nibble) (light rs : Bool) :
    frame light (nibbleData n) rs false = (n ++ (0 : Nibble)) ||| lightImage light ||| modeBit rs := by
  revert n light rs; decide

/-- Settles O10: each frame row is one transaction of its byte. -/
theorem frameRowsSendTheirByte : Obligations.FrameRowsSendTheirByte := by
  intro n light rs s hs
  refine ⟨?_, ?_, runPart_sendsPart hs (sendByte_performs _ s)⟩
  · rw [← frame_nibble_high]
    exact runPart_sendsPart hs (sendByte_performs _ s)
  · rw [← frame_nibble_low]
    exact runPart_sendsPart hs (sendByte_performs _ s)

/-- Settles O11: each raw nibble is one nibble frame. -/
theorem rawNibbleRowsPulseOnce : Obligations.RawNibbleRowsPulseOnce := fun s hs =>
  ⟨runPart_sendsPart hs (rawNibble3_performs s), runPart_sendsPart hs (rawNibble2_performs s)⟩

/-! ### HD44780 bytes -/

theorem entryByte_flags (dir auto : Bool) :
    entryByte (maskIf dir flagID ||| maskIf auto flagS) = BitVec.ofNat 8 (4 + 2 * dir.toNat + auto.toNat) := by
  cases dir <;> cases auto <;> rfl

theorem dispCtlByte_flags (disp cursor blink : Bool) :
    dispCtlByte (maskIf disp flagD ||| maskIf cursor flagC ||| maskIf blink flagB) =
      BitVec.ofNat 8 (8 + 4 * disp.toNat + 2 * cursor.toNat + blink.toNat) := by
  cases disp <;> cases cursor <;> cases blink <;> rfl

theorem shiftByte_flags (move right : Bool) :
    shiftByte move right = BitVec.ofNat 8 (16 + 8 * move.toNat + 4 * right.toNat) := by
  cases move <;> cases right <;> rfl

theorem funcSetByte_flags (eight twoLine font : Bool) :
    funcSetByte eight twoLine font =
      BitVec.ofNat 8 (32 + 16 * eight.toNat + 8 * twoLine.toNat + 4 * font.toNat) := by
  cases eight <;> cases twoLine <;> cases font <;> rfl

theorem setCgramByte_slot (slot : BitVec 3) :
    setCgramByte (slot.zeroExtend 8) = BitVec.ofNat 8 (64 + 8 * slot.toNat) := by
  revert slot; decide

theorem setDdramByte_addr (addr : BitVec 7) :
    setDdramByte (addr.zeroExtend 8) = BitVec.ofNat 8 (128 + addr.toNat) := by
  revert addr; decide

/-- A command row sends its byte with register-select 0 (R120). -/
theorem runPart_cmd_sendsPart {s : State} (hs : Alive s) {b c : Byte} (h : b = c) :
    SendsPart (sendEvents s.backlight c false) s (runPart (cmd b) s) :=
  h ▸ runPart_sendsPart hs (cmd_performs b s)

/-- Settles O14: each row is a send of the byte of the table. -/
theorem lcdRowsSendTheirByte : Obligations.LcdRowsSendTheirByte := fun s hs =>
  ⟨runPart_sendsPart hs (fmtClear_performs s), runPart_sendsPart hs (fmtHome_performs s),
    fun dir auto => runPart_cmd_sendsPart hs (entryByte_flags dir auto),
    fun disp cursor blink => runPart_cmd_sendsPart hs (dispCtlByte_flags disp cursor blink),
    fun move right => runPart_cmd_sendsPart hs (shiftByte_flags move right),
    fun eight twoLine font => runPart_cmd_sendsPart hs (funcSetByte_flags eight twoLine font),
    fun slot => runPart_cmd_sendsPart hs (setCgramByte_slot slot),
    fun addr => runPart_cmd_sendsPart hs (setDdramByte_addr addr),
    fun b => runPart_sendsPart hs (fmtData_performs b s)⟩

end Sys2Proof.Machine
end

section
/-! Requests that are made of others (30_encoding.md R86): printText of its prints, and nextLine of setCursor. The run that
goes on after a first print differs from one of two requests in the sequencer position and the results alone. -/

namespace Sys2Proof.Machine

open Sys2Proof.Safety

/-! ### Runs alike but for the sequencer position and the results -/

theorem returnResult_of_eraseProgress {a b : State} (h : eraseProgress a = eraseProgress b) (r : Result) :
    returnResult r a = { returnResult r b with results := a.results ++ [r] } :=
  congrArg (fun x : State => { returnResult r x with results := a.results ++ [r] }) h

/-- Two bodies that perform events and end alike but for the progress return the same result, and the requests end alike
but for the results before. -/
theorem endRequest_of_eraseProgress {f g : Flow} {s t : State} {a b : List Event} (hf : Performs f s a)
    (hg : Performs g t b) (h : SameUpTo eraseProgress f g) :
    ∃ r, (endRequest g).results = t.results ++ [r] ∧
      endRequest f = { endRequest g with results := s.results ++ [r] } := by
  rcases hf.cases with rfl | ⟨k, _, _, p, _, rfl⟩ <;> rcases hg.cases with rfl | ⟨j, _, _, q, _, rfl⟩
  · exact ⟨.ok, rfl, returnResult_of_eraseProgress (Flow.go.inj h) .ok⟩
  · cases h
  · cases h
  · exact ⟨.err .busFailure, rfl, returnResult_of_eraseProgress (Flow.raise.inj h).2 (.err .busFailure)⟩

/-! ### printText -/

theorem exec_print_ready (ch : Byte) {s : State} (hl : s.lifecycle = .ready) :
    exec (.print ch) s = .next (endRequest (fmtData ch (loadSequence s))) := runRequest_ready _ s hl

theorem exec_printText_ready (text : List Byte) {s : State} (hl : s.lifecycle = .ready) :
    exec (.printText text) s = .next (endRequest (dataBytes text (loadSequence s))) := runRequest_ready _ s hl

/-- A failed first print is the end of the whole text, and after a good one the rest is sent as by a printText of its own. -/
theorem printText_cons (ch : Byte) (rest : List Byte) {s t : State} (hl : s.lifecycle = .ready)
    (ht : exec (.print ch) s = .next t) :
    (t.results = s.results ++ [.err .busFailure] ∧ exec (.printText (ch :: rest)) s = .next t) ∨
    (t.results = s.results ++ [.ok] ∧ ∃ u r, exec (.printText rest) t = .next u ∧
      u.results = s.results ++ [.ok, r] ∧
      exec (.printText (ch :: rest)) s = .next { u with results := s.results ++ [r] }) := by
  have htext : exec (.printText (ch :: rest)) s =
      .next (endRequest ((fmtData ch (loadSequence s)).andThen (dataBytes rest))) := exec_printText_ready _ hl
  rw [exec_print_ready ch hl] at ht
  cases ht
  rw [htext]
  rcases (fmtData_performs ch (loadSequence s)).cases with hgo | ⟨k, _, _, p, _, hraise⟩
  · rw [hgo]
    set a := afterOk (sendEvents (loadSequence s).backlight ch true) (loadSequence s) with ha
    have hsame : eraseProgress a = eraseProgress (loadSequence (returnResult .ok a)) := rfl
    obtain ⟨r, hres, hend⟩ := endRequest_of_eraseProgress (dataBytes_performs rest a)
      (dataBytes_performs rest (loadSequence (returnResult .ok a)))
      (dataBytes_sameUpTo erases_eraseProgress rest hsame)
    exact .inr ⟨rfl, _, r, exec_printText_ready rest hl, hres.trans (by simp [ha]), congrArg Host.Outcome.next hend⟩
  · rw [hraise]
    exact .inl ⟨rfl, rfl⟩

/-! ### nextLine -/

/-- With more or less than one row, nextLine's body is the write of the line and setCursor's body (R159). -/
theorem nextLineBody_of_rows_ne_one {s : State} (h : s.rows ≠ 1) :
    nextLineBody s = setCursorBody 0 (lineAfter s.currentLine s.rows)
      { s with currentLine := lineAfter s.currentLine s.rows } := if_neg h

/-- Settles O46. -/
theorem compoundRequestsExpand : Obligations.CompoundRequestsExpand := by
  refine ⟨fun ch rest s t hl ht => ?_, fun s hl hrows => ?_⟩
  · rcases printText_cons ch rest hl ht with ⟨hres, h⟩ | ⟨hres, h⟩
    · exact ⟨fun _ => h, fun hok => by simp [hres] at hok⟩
    · exact ⟨fun herr => by simp [hres] at herr, fun _ => h⟩
  · calc exec .nextLine s
      _ = .next (endRequest (nextLineBody (loadSequence s))) := runRequest_ready _ s hl
      _ = .next (endRequest (setCursorBody 0 (lineAfter s.currentLine s.rows)
            (loadSequence { s with currentLine := lineAfter s.currentLine s.rows }))) := by
        rw [nextLineBody_of_rows_ne_one (s := loadSequence s) hrows]; rfl
      _ = exec (.setCursor 0 (lineAfter s.currentLine s.rows))
            { s with currentLine := lineAfter s.currentLine s.rows } :=
        (runRequest_ready _ { s with currentLine := lineAfter s.currentLine s.rows } hl).symm

end Sys2Proof.Machine
end

section
/-! What the enable line delivers downstream (20_memory.md R52, R57; the observer is log entry 15), and that the command
bytes among it are those of 30_encoding.md R82. -/

namespace Sys2Proof.Machine

open Sys2Proof.Safety

/-! ### What nibble frames and sends deliver -/

/-- A nibble frame latches its nibble once, at its enable-low byte, and leaves EN low (20_memory.md R57). -/
theorem latched_nibbleEvents {f : Byte} (hf : f.getLsbD 2 = false) (rest : List Event) :
    latched false (nibbleEvents f ++ rest) = (f.extractLsb' 4 4, f.getLsbD 0) :: latched false rest := by
  have henable : (f ||| 0x04).getLsbD 2 = true := by simp
  simp only [nibbleEvents, List.cons_append, List.nil_append, latched, henable, hf, Bool.false_and, Bool.not_false,
    Bool.and_self, Bool.false_eq_true, if_true, if_false]

theorem extract_lowFrame (light rs : Bool) (d : Byte) :
    ((d &&& 0xF0) ||| modeBit rs ||| lightImage light).extractLsb' 4 4 = d.extractLsb' 4 4 := by
  revert d; cases light <;> cases rs <;> decide

theorem getLsbD_zero_lowFrame (light rs : Bool) (d : Byte) :
    ((d &&& 0xF0) ||| modeBit rs ||| lightImage light).getLsbD 0 = rs := by
  cases light <;> cases rs <;> simp [modeBit, lightImage]

/-- A send latches its two nibbles, the high one first, with its register-select bit (R78, R106). -/
theorem latched_sendEvents (light : Bool) (b : Byte) (rs : Bool) (rest : List Event) :
    latched false (sendEvents light b rs ++ rest) =
      (b.extractLsb' 4 4, rs) :: (b.extractLsb' 0 4, rs) :: latched false rest := by
  have hlow : (b <<< 4).extractLsb' 4 4 = b.extractLsb' 0 4 := by revert b; decide
  rw [sendEvents, List.append_assoc, latched_nibbleEvents (lowFrame_nibble light rs b).2.1,
    latched_nibbleEvents (lowFrame_nibble light rs (b <<< 4)).2.1]
  simp only [extract_lowFrame, getLsbD_zero_lowFrame, hlow]

/-- A send delivers its byte with its register-select bit (R105). -/
theorem delivered_sendEvents (light : Bool) (b : Byte) (rs : Bool) (rest : List Event) :
    delivered (sendEvents light b rs ++ rest) = (b, rs) :: delivered rest := by
  have hbyte : b.extractLsb' 4 4 ++ b.extractLsb' 0 4 = b := by revert b; decide
  rw [delivered, latched_sendEvents, paired, hbyte]
  rfl

/-! ### The command bytes among what is delivered -/

/-- Every command byte that the events deliver is in the list of R82. -/
def DeliversListed (evs : List Event) : Prop := ∀ d ∈ delivered evs, d.2 = false → isEmittedCommand d.1 = true

theorem deliversListed_nil : DeliversListed [] := fun _ h => nomatch h

theorem deliversListed_wait (t : Nat) : DeliversListed [.wait t] := fun _ h => nomatch h

theorem deliversListed_latch (light : Bool) : DeliversListed [.tx (lightImage light) .ok] := fun _ h => nomatch h

theorem DeliversListed.afterSend {rest : List Event} (h : DeliversListed rest) (light : Bool) {b : Byte} {rs : Bool}
    (hb : rs = false → isEmittedCommand b = true) : DeliversListed (sendEvents light b rs ++ rest) := by
  intro d hd
  rw [delivered_sendEvents] at hd
  rcases List.mem_cons.mp hd with rfl | hd
  · exact hb
  · exact h d hd

theorem DeliversListed.afterCommand {rest : List Event} (h : DeliversListed rest) (light : Bool) {b : Byte}
    (hb : isEmittedCommand b = true) : DeliversListed (sendEvents light b false ++ rest) :=
  h.afterSend light fun _ => hb

theorem DeliversListed.afterData {rest : List Event} (h : DeliversListed rest) (light : Bool) (b : Byte) :
    DeliversListed (sendEvents light b true ++ rest) :=
  h.afterSend light fun h => nomatch h

theorem deliversListed_command (light : Bool) {b : Byte} (hb : isEmittedCommand b = true) :
    DeliversListed (sendEvents light b false) := by
  simpa using deliversListed_nil.afterCommand light hb

theorem deliversListed_dataEvents (light : Bool) (bytes : List Byte) : DeliversListed (dataEvents light bytes) := by
  induction bytes with
  | nil => exact deliversListed_nil
  | cons b rest ih => exact ih.afterData light b

/-! ### The commands of the requests -/

theorem isEmittedCommand_cellCommand (offsets : List Byte) (col row : Nat) :
    isEmittedCommand (cellCommand offsets col row) = true := by
  have hbit : (cellCommand offsets col row).getLsbD 7 = true := by simp [cellCommand]
  rw [isEmittedCommand, hbit, Bool.or_true]

theorem isEmittedCommand_entryByte {mode : Byte} (h : mode &&& 0xFC = 0) :
    isEmittedCommand (entryByte mode) = true := by
  revert mode; decide

theorem isEmittedCommand_dispCtlByte {control : Byte} (h : control &&& 0xFB = 0) :
    isEmittedCommand (dispCtlByte control) = true := by
  revert control; decide

theorem isEmittedCommand_setCgramByte {slot : Byte} (h : slot.toNat ≤ 7) :
    isEmittedCommand (setCgramByte slot) = true := by
  revert slot; decide

theorem deliversListed_wrappedEvents (light : Bool) (cols rows : Byte) (offsets text : List Byte) (i : Nat) :
    DeliversListed (wrappedEvents light cols rows offsets i text) := by
  induction text generalizing i with
  | nil => exact deliversListed_nil
  | cons ch rest ih =>
    rw [wrappedEvents, List.append_assoc]
    exact ((ih (i + 1)).afterData light ch).afterCommand light (isEmittedCommand_cellCommand _ _ _)

/-- A usable request other than init, in a block with documented flags, sends commands of the list only. -/
theorem deliversListed_instrEvents {i : Instr} {s : State} (hr : isRequest i = true) (hi : i ≠ .init)
    (hs : Documented s) (hu : Usable i s) : DeliversListed (instrEvents i s) := by
  have hend := documented_atEnd hs hu
  cases i with
  | init => exact absurd rfl hi
  | displayOn | displayOff => exact deliversListed_command _ (isEmittedCommand_dispCtlByte hend.control)
  | autoscroll | textDirectionLeftToRight | textDirectionRightToLeft =>
    exact deliversListed_command _ (isEmittedCommand_entryByte hend.mode)
  | backlightOn | backlightOff => exact deliversListed_latch _
  | clear | home => exact (deliversListed_wait 2000).afterCommand _ (by decide)
  | scrollLeft | scrollRight => exact deliversListed_command _ (by decide)
  | setCursor | nextLine => exact deliversListed_command _ (isEmittedCommand_cellCommand _ _ _)
  | print ch => exact deliversListed_dataEvents s.backlight [ch]
  | printText text => exact deliversListed_dataEvents _ text
  | printWrapped text => exact deliversListed_wrappedEvents _ _ _ _ text 0
  | defineCustomGlyph slot pattern =>
    exact (deliversListed_dataEvents _ pattern).afterCommand _
      (setCgramByte_eq slot hu ▸ isEmittedCommand_setCgramByte hu)
  | illegalRequest => exact deliversListed_nil
  | _ => cases hr

/-- An instruction that has made no failed transaction has made none, or has been allowed and usable and has made all of
its own. -/
theorem Ends.events_of_allOk {i : Instr} {s t : State} {evs : List Event} (h : Ends i s t)
    (ht : t.trace = s.trace ++ evs) (hok : AllOk evs) :
    evs = [] ∨ (evs = instrEvents i s ∧ Allowed i s ∧ Usable i s) := by
  cases h with
  | illegal | notReady | error | divide => exact .inl (by simpa [faultedWith, returned] using ht)
  | done _ ha hu =>
    have hev : instrEvents i s = evs := by simpa using ht
    exact .inr ⟨hev.symm, ha, hu⟩
  | fails k p _ _ hu hk =>
    have hev : failedAt k (instrEvents i s) = evs := by simpa using ht
    obtain ⟨a, v, hlast, _⟩ := failedAt_eq_allOk_append k _ (instrEvents_allOk i s hu) hk
    have hfail : isFail (.tx v .fail) = false := hok _ (by simp [← hev, hlast])
    cases hfail

/-- Settles O51: an all-ok run has made no events, or all of the request's own, from documented flags. -/
theorem deliveredCommandsAreListed : Obligations.DeliveredCommandsAreListed := by
  intro i s t evs hr hi hinv ht htr hok
  show DeliversListed evs
  rcases (exec_ends ht).events_of_allOk htr hok with rfl | ⟨rfl, ha, hu⟩
  · exact deliversListed_nil
  · have hl : s.lifecycle = .ready := by simpa [Allowed, hr, hi] using ha
    exact deliversListed_instrEvents hr hi (documented_of_inv hinv hl) hu

end Sys2Proof.Machine
end

section
/-! The transmit primitives by themselves (40_transmit.md R100 to R106): a transaction, a send and the two failures of a
nibble frame, each read off the events that the primitive performs. -/

namespace Sys2Proof.Machine

open Sys2Proof.Safety

/-- Settles O9: TX performs its one transaction. -/
theorem transactionWritesTheExpander : Obligations.TransactionWritesTheExpander := fun v s hs =>
  ⟨rfl, runPart_sendsPart hs (sendByte_performs v s)⟩

/-- Settles O12: the events of a send, written out. -/
theorem sendEmitsTwoNibbleFrames : Obligations.SendEmitsTwoNibbleFrames := fun value rs s hok =>
  ⟨_, (send_performs value rs s).goes hok, rfl⟩

/-- Settles O13: the events of a nibble frame, cut off at its first and at its second transaction. -/
theorem nibbleFrameFailures : Obligations.NibbleFrameFailures := by
  intro d rs s f
  have hframe : Performs (writeNibble d rs s) s (nibbleEvents f) := by
    simpa only [frame_low] using writeNibble_performs d rs s
  refine ⟨fun hfail => ?_, fun hfail => ?_⟩
  · obtain ⟨p, hp, hraise⟩ := hframe.raises 0 (by simp) hfail
    exact ⟨_, hraise, rfl, by simpa [nibbleEvents, failedAt, portsAfter] using hp⟩
  · obtain ⟨p, hp, hraise⟩ := hframe.raises 1 (by simp) hfail
    exact ⟨_, hraise, rfl, by simpa [nibbleEvents, failedAt, portsAfter] using hp⟩

end Sys2Proof.Machine
end

section
/-! What the parts of requests leave alone (40_transmit.md R100 to R105, 41_commands.md R120, R121; log entry 8), and
the backlight bit of the frames that a request sends (R109). -/

namespace Sys2Proof.Machine

open Sys2Proof.Safety

/-! ### Parts -/

theorem isIllegal_part {i : Instr} (h : isRequest i = false) : isIllegal i = false := by
  unfold isIllegal
  split
  · cases h
  · cases h
  · rfl

theorem isToggle_part {i : Instr} (h : isRequest i = false) : isToggle i = false := by
  unfold isToggle
  split
  · cases h
  · cases h
  · rfl

/-- Only the bodies of requests write fields. -/
theorem writes_part {i : Instr} (h : isRequest i = false) (s : State) :
    atEnd i s = s ∧ ∀ k, atFailure i s k = s := by
  cases i with
  | lcdClear | lcdHome | lcdEntry | lcdDispCtl | lcdShift | lcdFuncSet | lcdSetCgram | lcdSetDdram | lcdData
  | rawNibble3 | rawNibble2 | frameEnHigh | frameEnLow | frameRawLatch | tx => exact ⟨rfl, fun _ => rfl⟩
  | _ => cases h

/-- A part of a request goes on after its events, or ends the request with a bus failure. -/
theorem Ends.part_cases {i : Instr} {s t : State} (h : Ends i s t) (hr : isRequest i = false) :
    t = afterOk (instrEvents i s) s ∨ ∃ e p, t = busFailed (emitted e p s) := by
  obtain ⟨hend, hfail⟩ := writes_part hr s
  cases h with
  | illegal hill => simp [isIllegal_part hr] at hill
  | notReady _ hreq | error _ _ _ hreq => simp [hr] at hreq
  | divide _ hi =>
    subst hi
    cases hr
  | done =>
    rw [finish_part hr, hend]
    exact .inl rfl
  | fails k p =>
    rw [failWith_other (isToggle_part hr), hfail]
    exact .inr ⟨_, p, rfl⟩

/-- Settles O38, from the two ends of a part. -/
theorem partsWriteNoField : Obligations.PartsWriteNoField := by
  intro i s t hr ht
  rcases (exec_ends ht).part_cases hr with rfl | ⟨e, p, rfl⟩
  · exact ⟨rfl, rfl, rfl, rfl, rfl, rfl, rfl, .inl ⟨rfl, rfl⟩⟩
  · exact ⟨rfl, rfl, rfl, rfl, rfl, rfl, rfl, .inr ⟨rfl, rfl, rfl⟩⟩

/-! ### The backlight bit -/

theorem atEnd_backlight (i : Instr) (s : State) : (atEnd i s).backlight = lightOf i s := by cases i <;> rfl

theorem atFailure_backlight (i : Instr) (s : State) (k : Nat) : (atFailure i s k).backlight = lightOf i s := by
  cases i <;> rfl

/-- An instruction that has made events has written the backlight flag they carry: a toggle writes it before its one
latch. -/
theorem Ends.backlight_of_events {i : Instr} {s t : State} {evs : List Event} (h : Ends i s t)
    (ht : t.trace = s.trace ++ evs) : evs = [] ∨ t.backlight = lightOf i s := by
  cases h with
  | illegal | notReady | error | divide => exact .inl (by simpa [faultedWith, returned] using ht)
  | done => exact .inr ((sameFields_finish_afterOk i _ _).backlight.trans (atEnd_backlight i s))
  | fails k p => exact .inr ((sameFields_failWith_emitted i _ p _).backlight.trans (atFailure_backlight i s k))

theorem LowFrame.light {light : Bool} {f : Byte} (h : LowFrame light f) : f.getLsbD 3 = light := h.2.2

/-- Setting EN leaves the backlight bit. -/
theorem LowFrame.light_enabled {light : Bool} {f : Byte} (h : LowFrame light f) : (f ||| 0x04).getLsbD 3 = light := by
  rw [BitVec.getLsbD_or, h.light]
  exact Bool.or_false light

/-- Every frame byte of blocks carries their backlight value. -/
theorem Blocks.everyFrame_light {light : Bool} {e : List Event} (h : Blocks light e) :
    EveryFrame (fun v => v.getLsbD 3 = light) e := by
  induction h with
  | nil => exact everyFrame_nil _
  | wait _ ih => exact everyFrame_wait ih
  | latch _ ih => exact everyFrame_tx (lowFrame_lightImage light).light ih
  | nibble hf _ ih =>
    exact everyFrame_tx hf.light_enabled (everyFrame_wait (everyFrame_tx hf.light (everyFrame_wait ih)))
  | latchFails => exact everyFrame_tx (lowFrame_lightImage light).light (everyFrame_nil _)
  | highFails hf => exact everyFrame_tx hf.light_enabled (everyFrame_nil _)
  | lowFails hf =>
    exact everyFrame_tx hf.light_enabled (everyFrame_wait (everyFrame_tx hf.light (everyFrame_nil _)))

/-- Settles O42: the events of a request are blocks with one backlight value, and that is the flag at the end. -/
theorem everyFrameCarriesTheBacklight : Obligations.EveryFrameCarriesTheBacklight := by
  intro i s t evs hr ht htr
  have hends := exec_ends ht
  rcases hends.backlight_of_events htr with rfl | hlight
  · exact everyFrame_nil _
  · rw [hlight]
    exact (blocks_of_trace hr hends htr).everyFrame_light

end Sys2Proof.Machine
end

section
/-! A failed run beside an all-ok run of the same instruction (40_transmit.md R110): which events an instruction would
make does not depend on the bus's answers, and a block that is not faulted always goes on to a next state. -/

namespace Sys2Proof.Machine

open Sys2Proof.Safety

theorem runRequest_alive (body : State → Flow) {s : State} (hs : Alive s) : ∃ t, runRequest body s = .next t := by
  cases hl : s.lifecycle with
  | faulted r => exact absurd hl (hs r)
  | uninitialized => exact ⟨_, runRequest_uninitialized body s hl⟩
  | ready => exact ⟨_, runRequest_ready body s hl⟩

/-- A block that is not faulted goes on to a next state, whatever the instruction and the bus's answers. -/
theorem exec_alive (i : Instr) {s : State} (hs : Alive s) : ∃ t, exec i s = .next t := by
  cases i with
  | init => exact ⟨_, runInit_alive initBody s hs⟩
  | illegalRequest => exact ⟨_, runIllegal_alive s hs⟩
  | defineCustomGlyph slot pattern =>
    by_cases hlen : pattern.length = glyphBytes
    · obtain ⟨t, ht⟩ := runRequest_alive (defineCustomGlyphBody slot pattern) hs
      exact ⟨t, (if_pos hlen).trans ht⟩
    · exact ⟨_, (if_neg hlen).trans (runIllegal_alive s hs)⟩
  | lcdClear | lcdHome | lcdEntry | lcdDispCtl | lcdShift | lcdFuncSet | lcdSetCgram | lcdSetDdram | lcdData
  | rawNibble3 | rawNibble2 | frameEnHigh | frameEnLow | frameRawLatch | tx => exact ⟨_, runPart_alive _ s hs⟩
  | _ => exact runRequest_alive _ hs

/-- A transaction that fails is the first to fail. -/
theorem busFailsAt_unique {j k : Nat} {s : State} (hj : BusFailsAt j s) (hk : BusFailsAt k s) : j = k := by
  rcases Nat.lt_trichotomy j k with hlt | heq | hlt
  · exact absurd hk.1 (not_busOk_of_failsAt hlt hj)
  · exact heq
  · exact absurd hj.1 (not_busOk_of_failsAt hlt hk)

/-- What is turned away makes no event. -/
theorem Ends.trace_of_illegal {i : Instr} {s t : State} (h : Ends i s t) (hill : isIllegal i = true) :
    t.trace = s.trace := by
  cases h with
  | illegal | divide => rfl
  | notReady hn | error _ _ hn | done hn | fails _ _ hn => simp [hn] at hill

/-- An instruction that is not turned away, allowed and usable ends at the first of its transactions that fails. -/
theorem Ends.trace_of_busFailsAt {i : Instr} {s t : State} {k : Nat} (h : Ends i s t) (hill : isIllegal i = false)
    (ha : Allowed i s) (hu : Usable i s) (hk : k < txCount (instrEvents i s)) (hfail : BusFailsAt k s) :
    t.trace = s.trace ++ failedAt k (instrEvents i s) := by
  cases h with
  | illegal h => simp [hill] at h
  | notReady _ hr hi hl => simp [Allowed, hr, hi, hl] at ha
  | error _ _ _ _ _ _ hn => exact absurd hu hn
  | divide _ _ _ hn => exact absurd hu hn
  | done _ _ _ hok => exact absurd hok (not_busOk_of_failsAt hk hfail)
  | fails j p _ _ _ _ hj =>
    obtain rfl := busFailsAt_unique hj hfail
    simp

/-- Settles O43: the all-ok run shows that the instruction is allowed and usable, which the answers do not change. -/
theorem failedRunIsTruncatedRun : Obligations.FailedRunIsTruncatedRun := by
  intro i s u answers evs k hu htr hok hk hfail
  have hends := exec_ends hu
  have hill : isIllegal i = false := Bool.eq_false_iff.mpr fun hill => by
    have hnil : evs = [] := by simpa [htr] using hends.trace_of_illegal hill
    simp [hnil, txCount] at hk
  rcases hends.events_of_allOk htr hok with rfl | ⟨rfl, ha, husable⟩
  · simp [txCount] at hk
  · rw [instrEvents_answers] at hk ⊢
    obtain ⟨t, ht⟩ := exec_alive i (s := s) ha.alive
    exact ⟨t, ht, (exec_ends ht).trace_of_busFailsAt hill ha husable hk hfail⟩

end Sys2Proof.Machine
end

section
/-! What an all-ok printText delivers downstream (40_transmit.md R105, 42_operations.md R151; the observer is log entry
15): each of its sends delivers one data byte. -/

namespace Sys2Proof.Machine

open Sys2Proof.Safety

theorem delivered_dataEvents (light : Bool) (bytes : List Byte) :
    delivered (dataEvents light bytes) = bytes.map fun b => (b, true) := by
  induction bytes with
  | nil => rfl
  | cons b rest ih => exact (delivered_sendEvents light b true (dataEvents light rest)).trans (congrArg _ ih)

/-- Settles O50: the events are those of the text's data bytes. -/
theorem printTextDeliversTheText : Obligations.PrintTextDeliversTheText := by
  intro text s hl hok
  have hgo := (dataBytes_performs text (loadSequence s)).goes (by rw [txCount_dataEvents]; exact hok)
  exact ⟨_, _, exec_printText_ready text hl, by rw [hgo]; rfl, delivered_dataEvents s.backlight text⟩

end Sys2Proof.Machine
end

section
/-! The formatter operations that read the state (41_commands.md R123, R124, R126) and their rows: a byte with documented
bits alone (10_state.md R28) is the union of its flags, so operation and row send one byte. -/

namespace Sys2Proof.Machine

open Sys2Proof.Safety

theorem displayMode_eq_flags {mode : Byte} (h : mode &&& 0xFC = 0) :
    mode = maskIf (mode.getLsbD 1) flagID ||| maskIf (mode.getLsbD 0) flagS := by
  revert mode; decide

theorem displayControl_eq_flags {control : Byte} (h : control &&& 0xF8 = 0) :
    control = maskIf (control.getLsbD 2) flagD ||| maskIf (control.getLsbD 1) flagC |||
      maskIf (control.getLsbD 0) flagB := by
  revert control; decide

theorem fmtEntry_eq_cmd_flags {s : State} (h : s.displayMode &&& 0xFC = 0) :
    fmtEntry s =
      cmd (entryByte (maskIf (s.displayMode.getLsbD 1) flagID ||| maskIf (s.displayMode.getLsbD 0) flagS)) s := by
  rw [fmtEntry, ← displayMode_eq_flags h]

theorem fmtDispCtl_eq_cmd_flags {s : State} (h : s.displayControl &&& 0xF8 = 0) :
    fmtDispCtl s =
      cmd (dispCtlByte (maskIf (s.displayControl.getLsbD 2) flagD ||| maskIf (s.displayControl.getLsbD 1) flagC |||
        maskIf (s.displayControl.getLsbD 0) flagB)) s := by
  rw [fmtDispCtl, ← displayControl_eq_flags h]

/-- Of its body, a part depends on the answer in the state it runs in alone. -/
theorem runPart_congr {body body' : State → Flow} {s : State} (hs : Alive s) (h : body s = body' s) :
    runPart body s = runPart body' s := by
  rw [runPart_alive body s hs, runPart_alive body' s hs, h]

/-- Settles O15: the byte that the operation forms from the state is the row's, flag for flag. -/
theorem formatterSendsTheRow : Obligations.FormatterSendsTheRow := fun _ hs =>
  ⟨fun hmode => runPart_congr hs (fmtEntry_eq_cmd_flags hmode),
    fun hcontrol => runPart_congr hs (fmtDispCtl_eq_cmd_flags hcontrol),
    runPart_congr hs rfl⟩

end Sys2Proof.Machine
end

section
/-! The one end that an instruction comes to once the bus's answers are known: the ends listed by `exec_ends` exclude each
other, so an instruction that its lifecycle and its checks allow goes to its end, or fails at the known transaction. -/

namespace Sys2Proof.Machine

open Sys2Proof.Safety

/-- All of the transactions answered `ok`: the instruction's events, and the fields it writes. -/
theorem Ends.eq_of_busOk {i : Instr} {s t : State} (h : Ends i s t) (hill : isIllegal i = false) (ha : Allowed i s)
    (hu : Usable i s) (hok : BusOk (txCount (instrEvents i s)) s) :
    t = finish i (afterOk (instrEvents i s) (atEnd i s)) := by
  cases h with
  | illegal h => simp [hill] at h
  | notReady _ hr hi hl => simp [Allowed, hr, hi, hl] at ha
  | error _ _ _ _ _ _ hn => exact absurd hu hn
  | divide _ _ _ hn => exact absurd hu hn
  | done => rfl
  | fails _ _ _ _ _ hk hfail => exact absurd hok (not_busOk_of_failsAt hk hfail)

/-- Transaction `k` the first to fail: the events up to it, and the fields written before it. -/
theorem Ends.eq_of_busFailsAt {i : Instr} {s t : State} {k : Nat} (h : Ends i s t) (hill : isIllegal i = false)
    (ha : Allowed i s) (hu : Usable i s) (hk : k < txCount (instrEvents i s)) (hfail : BusFailsAt k s) :
    ∃ p ∈ portsAfter (failedAt k (instrEvents i s)) s.port,
      t = failWith i (emitted (failedAt k (instrEvents i s)) p (atFailure i s k)) := by
  cases h with
  | illegal h => simp [hill] at h
  | notReady _ hr hi hl => simp [Allowed, hr, hi, hl] at ha
  | error _ _ _ _ _ _ hn => exact absurd hu hn
  | divide _ _ _ hn => exact absurd hu hn
  | done _ _ _ hok => exact absurd hok (not_busOk_of_failsAt hk hfail)
  | fails j p _ _ _ _ hj hp =>
    obtain rfl := busFailsAt_unique hj hfail
    exact ⟨p, hp, rfl⟩

/-- An all-`ok` request returns `Ok` after its events, with its fields written. -/
theorem exec_of_busOk {i : Instr} {s : State} (hr : isRequest i = true) (hill : isIllegal i = false) (ha : Allowed i s)
    (hu : Usable i s) (hok : BusOk (txCount (instrEvents i s)) s) :
    exec i s = .next (returned .ok (afterOk (instrEvents i s) (atEnd i s))) := by
  obtain ⟨t, ht⟩ := exec_alive i ha.alive
  rw [ht, (exec_ends ht).eq_of_busOk hill ha hu hok, finish_request hr]

/-- An instruction whose transaction `k` fails ends there. -/
theorem exec_of_busFailsAt {i : Instr} {s : State} {k : Nat} (hill : isIllegal i = false) (ha : Allowed i s)
    (hu : Usable i s) (hk : k < txCount (instrEvents i s)) (hfail : BusFailsAt k s) :
    ∃ p ∈ portsAfter (failedAt k (instrEvents i s)) s.port,
      exec i s = .next (failWith i (emitted (failedAt k (instrEvents i s)) p (atFailure i s k))) := by
  obtain ⟨t, ht⟩ := exec_alive i ha.alive
  rw [ht]
  obtain ⟨p, hp, rfl⟩ := (exec_ends ht).eq_of_busFailsAt hill ha hu hk hfail
  exact ⟨p, hp, rfl⟩

@[simp] theorem atFailure_port (i : Instr) (s : State) (k : Nat) : (atFailure i s k).port = s.port := by
  cases i <;> rfl

/-- Every instruction but the toggles returns `BusFailure` at a failed transaction. -/
theorem exec_failsAt {i : Instr} {s : State} {k : Nat} (htog : isToggle i = false) (hill : isIllegal i = false)
    (ha : Allowed i s) (hu : Usable i s) (hk : k < txCount (instrEvents i s)) (hfail : BusFailsAt k s) :
    FailsAt k (instrEvents i s) (atFailure i s k) (exec i s) := by
  obtain ⟨p, hp, h⟩ := exec_of_busFailsAt hill ha hu hk hfail
  exact ⟨p, by rwa [atFailure_port], by rw [h, failWith_other htog]⟩

theorem allowed_of_ready (i : Instr) {s : State} (hl : s.lifecycle = .ready) : Allowed i s := by
  unfold Allowed
  split
  · exact hl
  · exact alive_of_ready hl

/-- The requests that a Ready block performs without a check, and that return an error at a failed transaction. -/
def isUnchecked : Instr → Bool
  | .displayOn | .displayOff | .clear | .print _ | .printText _ | .autoscroll _ | .scrollLeft | .scrollRight
  | .textDirectionLeftToRight | .textDirectionRightToLeft | .home => true
  | _ => false

theorem request_of_isUnchecked {i : Instr} (h : isUnchecked i = true) :
    isRequest i = true ∧ isIllegal i = false ∧ isToggle i = false ∧ ∀ s, Usable i s := by
  cases i with
  | displayOn | displayOff | clear | print | printText | autoscroll | scrollLeft | scrollRight
  | textDirectionLeftToRight | textDirectionRightToLeft | home => exact ⟨rfl, rfl, rfl, fun _ => trivial⟩
  | _ => cases h

/-- A request without checks sends its events, once the fields it writes are sorted into those before and those after. -/
theorem requestSends_of_isUnchecked {i : Instr} {before after : State → State} {evs : State → List Event}
    (h : isUnchecked i = true) (hevs : ∀ s, instrEvents i s = evs s)
    (hend : ∀ s e, afterOk e (atEnd i s) = after (afterOk e (before s))) (hfail : ∀ s k, atFailure i s k = before s) :
    RequestSends i before after evs := by
  obtain ⟨hr, hill, htog, hu⟩ := request_of_isUnchecked h
  intro s hl
  have ha := allowed_of_ready i hl
  refine ⟨fun hok => ?_, fun k hk hf => ?_⟩
  · rw [← hend, ← hevs]
    exact exec_of_busOk hr hill ha (hu s) (by rwa [hevs])
  · rw [← hfail s k, ← hevs]
    exact exec_failsAt htog hill ha (hu s) (by rwa [hevs]) hf

/-- A check that fails in a request's body is the request's result, with no event and with no field written but those of
`u`. -/
theorem runRequest_raises {body : State → Flow} {s u : State} {code : ErrorCode} (hl : s.lifecycle = .ready)
    (hcode : code ≠ .busFailure) (h : body (loadSequence s) = .raise code (loadSequence u)) :
    runRequest body s = .next (returned (.err code) u) := by
  rw [runRequest_ready body s hl, h, endRequest, returnResult_err _ _ hcode]
  rfl

end Sys2Proof.Machine
end

section
/-! The requests that write a flag and then send it (42_operations.md R142, R144 to R147, R153, R156, R157): each is its
list of events, with the field written before them. -/

namespace Sys2Proof.Machine

open Sys2Proof.Safety

/-- Settles O17. -/
theorem displayOnSetsTheFlag : Obligations.DisplayOnSetsTheFlag :=
  ⟨rfl, requestSends_of_isUnchecked rfl (fun _ => rfl) (fun _ _ => rfl) fun _ _ => rfl⟩

/-- Settles O18: clearing `D` is the mask 0xFB. -/
theorem displayOffClearsTheFlag : Obligations.DisplayOffClearsTheFlag :=
  ⟨rfl, requestSends_of_isUnchecked rfl (fun _ => rfl) (fun _ _ => rfl) fun _ _ => rfl⟩

/-- Settles O25: clearing `S` is the mask 0xFE. -/
theorem autoscrollSetsTheFlag : Obligations.AutoscrollSetsTheFlag :=
  ⟨rfl, rfl,
    requestSends_of_isUnchecked rfl (fun _ => rfl) (fun _ _ => rfl) fun _ _ => rfl,
    requestSends_of_isUnchecked rfl (fun _ => rfl) (fun _ _ => rfl) fun _ _ => rfl⟩

/-- Settles O27: clearing `ID` is the mask 0xFD. -/
theorem textDirectionsSetTheFlag : Obligations.TextDirectionsSetTheFlag :=
  ⟨rfl, rfl,
    requestSends_of_isUnchecked rfl (fun _ => rfl) (fun _ _ => rfl) fun _ _ => rfl,
    requestSends_of_isUnchecked rfl (fun _ => rfl) (fun _ _ => rfl) fun _ _ => rfl⟩

/-- Settles O19: a toggle has one transaction, and its failure is the one that ends in a fault. -/
theorem backlightTogglesLatchOnce : Obligations.BacklightTogglesLatchOnce := by
  refine ⟨rfl, rfl, fun s hl on => ?_⟩
  cases on with
  | true =>
    have ha := allowed_of_ready .backlightOn hl
    exact ⟨exec_of_busOk rfl rfl ha trivial, exec_of_busFailsAt rfl ha trivial Nat.one_pos⟩
  | false =>
    have ha := allowed_of_ready .backlightOff hl
    exact ⟨exec_of_busOk rfl rfl ha trivial, exec_of_busFailsAt rfl ha trivial Nat.one_pos⟩

end Sys2Proof.Machine
end

section
/-! The requests without checks that write no flag (42_operations.md R148, R150, R151, R154, R155, R158). -/

namespace Sys2Proof.Machine

open Sys2Proof.Safety

/-- Settles O20: the line is the one field written after the events. -/
theorem clearSendsThenResetsTheLine : Obligations.ClearSendsThenResetsTheLine :=
  ⟨rfl, requestSends_of_isUnchecked rfl (fun _ => rfl) (fun _ _ => rfl) fun _ _ => rfl⟩

/-- Settles O22. -/
theorem printSendsOneByte : Obligations.PrintSendsOneByte := fun _ =>
  ⟨rfl, requestSends_of_isUnchecked rfl (fun _ => rfl) (fun _ _ => rfl) fun _ _ => rfl⟩

/-- Settles O23. -/
theorem printTextSendsInOrder : Obligations.PrintTextSendsInOrder := fun text =>
  ⟨rfl, txCount_dataEvents true text,
    requestSends_of_isUnchecked rfl (fun _ => rfl) (fun _ _ => rfl) fun _ _ => rfl⟩

/-- Settles O26. -/
theorem scrollsSendTheShift : Obligations.ScrollsSendTheShift :=
  ⟨rfl, rfl,
    requestSends_of_isUnchecked rfl (fun _ => rfl) (fun _ _ => rfl) fun _ _ => rfl,
    requestSends_of_isUnchecked rfl (fun _ => rfl) (fun _ _ => rfl) fun _ _ => rfl⟩

/-- Settles O28. -/
theorem homeLeavesTheLine : Obligations.HomeLeavesTheLine :=
  ⟨rfl, requestSends_of_isUnchecked rfl (fun _ => rfl) (fun _ _ => rfl) fun _ _ => rfl⟩

end Sys2Proof.Machine
end

section
/-! The requests with checks (42_operations.md R149, R152, R159, R160): which check fails first, and what is sent where none
does. -/

namespace Sys2Proof.Machine

open Sys2Proof.Safety

/-- Settles O21. -/
theorem setCursorAddressesTheCell : Obligations.SetCursorAddressesTheCell := by
  refine fun col row => ⟨rfl, fun s hl => ⟨fun hrow => ?_, fun hrow hrows => ?_, fun offsets htable hrow => ?_⟩⟩
  · exact runRequest_raises hl (by decide) (setCursorBody_outOfRange col row (loadSequence s) hrow)
  · exact runRequest_raises hl (by decide) (setCursorBody_unsupported col row (loadSequence s) hrow hrows)
  · have ha := allowed_of_ready (.setCursor col row) hl
    obtain rfl := offsetsOf_rowTable htable
    have hu : Usable (.setCursor col row) s := ⟨hrow, _, htable⟩
    exact ⟨exec_of_busOk rfl rfl ha hu, fun k hk => exec_failsAt rfl rfl ha hu hk⟩

/-- The first character of a text goes through setCursor's checks (R152). -/
theorem printWrappedFrom_raises {ch : Byte} {rest : List Byte} {i : Nat} {s : State} {code : ErrorCode} (hc : s.cols ≠ 0)
    (h : setCursorBody (wrapCol s.cols i) (wrapRow s.cols s.rows i) s = .raise code s) :
    printWrappedFrom (ch :: rest) i s = .raise code s := by
  rw [printWrappedFrom, if_neg hc, h]
  rfl

/-- With no columns the first character faults (R152). -/
theorem exec_printWrapped_noColumns {text : List Byte} {s : State} (hl : s.lifecycle = .ready) (htext : text ≠ [])
    (hc : s.cols = 0) : exec (.printWrapped text) s = .next (faultedWith .divideByZero s) := by
  obtain ⟨ch, rest, rfl⟩ := List.exists_cons_of_ne_nil htext
  have hbody : printWrappedFrom (ch :: rest) 0 (loadSequence s) = .abort .divideByZero (loadSequence s) := if_pos hc
  show runRequest (printWrappedFrom (ch :: rest) 0) s = _
  rw [runRequest_ready _ s hl, hbody]
  rfl

/-- A geometry that setCursor refuses is an error at the first character (R152, R149). -/
theorem exec_printWrapped_raises {text : List Byte} {s : State} {code : ErrorCode} (hl : s.lifecycle = .ready)
    (htext : text ≠ []) (hc : s.cols ≠ 0) (hcode : code ≠ .busFailure)
    (h : setCursorBody (wrapCol s.cols 0) (wrapRow s.cols s.rows 0) (loadSequence s) = .raise code (loadSequence s)) :
    exec (.printWrapped text) s = .next (returned (.err code) s) := by
  obtain ⟨ch, rest, rfl⟩ := List.exists_cons_of_ne_nil htext
  exact runRequest_raises hl hcode (printWrappedFrom_raises (s := loadSequence s) hc h)

/-- A row of printWrapped is a row of the display, if there are any. -/
theorem wrapRow_lt (cols : Byte) {rows : Byte} (h : rows ≠ 0) (i : Nat) : (wrapRow cols rows i).toNat < rows.toNat := by
  rw [wrapRow_toNat]
  exact cellRow_lt cols rows i (Nat.pos_of_ne_zero (toNat_ne_zero h))

theorem atEnd_printWrapped {text : List Byte} (h : text ≠ []) (s : State) : atEnd (.printWrapped text) s =
    { s with currentLine := BitVec.ofNat 8 (cellRow s.cols s.rows (text.length - 1)) } :=
  congrArg (fun line => { s with currentLine := line }) (if_neg h)

/-- Settles O24. -/
theorem printWrappedWalksTheCells : Obligations.PrintWrappedWalksTheCells := by
  refine fun text => ⟨rfl, fun s hl => ⟨?_, exec_printWrapped_noColumns hl, fun htext hc hrows => ?_,
    fun htext hc hrows hun => ?_, fun offsets htable htext hc => ?_⟩⟩
  · rintro rfl
    exact runRequest_ready _ s hl
  · refine exec_printWrapped_raises hl htext hc (by decide) (setCursorBody_outOfRange _ _ _ ?_)
    simp [hrows]
  · exact exec_printWrapped_raises hl htext hc (by decide) (setCursorBody_unsupported _ _ _ (wrapRow_lt _ hrows 0) hun)
  · have ha := allowed_of_ready (.printWrapped text) hl
    obtain rfl := offsetsOf_rowTable htable
    have hu : Usable (.printWrapped text) s := .inr ⟨hc, _, htable⟩
    have hcount : txCount (instrEvents (.printWrapped text) s) = 8 * text.length := txCount_wrappedEvents _ _ _ _ _ _
    refine ⟨fun hok => ?_, fun k hk => exec_failsAt rfl rfl ha hu (by rwa [hcount])⟩
    rw [exec_of_busOk rfl rfl ha hu (by rwa [hcount]), atEnd_printWrapped htext]
    rfl

/-- nextLine's checks after its own are those of setCursor, with the line already written (R159). -/
theorem exec_nextLine_raises {s : State} {code : ErrorCode} (hl : s.lifecycle = .ready) (hrows : s.rows ≠ 1)
    (hcode : code ≠ .busFailure)
    (h : ∀ u : State, u.rows = s.rows → setCursorBody 0 (lineAfter s.currentLine s.rows) u = .raise code u) :
    exec .nextLine s = .next (returned (.err code) { s with currentLine := lineAfter s.currentLine s.rows }) :=
  runRequest_raises hl hcode ((nextLineBody_of_rows_ne_one (s := loadSequence s) hrows).trans (h _ rfl))

/-- Settles O29. -/
theorem nextLineAdvancesThenWraps : Obligations.NextLineAdvancesThenWraps := by
  refine ⟨rfl, fun s hl => ⟨fun hrows => ?_, fun hrows => ?_, fun hrows hun => ?_, fun offsets htable hrows => ?_⟩⟩
  · exact runRequest_raises hl (by decide) (if_pos hrows)
  · refine exec_nextLine_raises hl (by simp [hrows]) (by decide) fun u hu => setCursorBody_outOfRange _ _ u ?_
    simp [hu, hrows]
  · refine exec_nextLine_raises hl hun.1 (by decide) fun u hu => setCursorBody_unsupported _ _ u ?_ (hu ▸ hun)
    rw [hu]
    exact lineAfter_lt _ _ hrows
  · have ha := allowed_of_ready .nextLine hl
    obtain rfl := offsetsOf_rowTable htable
    have hu : Usable .nextLine s := ⟨hrows, _, htable⟩
    exact ⟨exec_of_busOk rfl rfl ha hu, fun k hk => exec_failsAt rfl rfl ha hu hk⟩

/-- A pattern of 8 bytes makes the glyph's request one of the block (R72). -/
theorem exec_defineCustomGlyph_legal (slot : Byte) {pattern : List Byte} (h : pattern.length = 8) (s : State) :
    exec (.defineCustomGlyph slot pattern) s = runRequest (defineCustomGlyphBody slot pattern) s := if_pos h

/-- Settles O30: 4 transactions for the address and 4 for each of the 8 bytes. -/
theorem defineCustomGlyphWritesNineBytes : Obligations.DefineCustomGlyphWritesNineBytes := by
  refine fun slot pattern hlen => ⟨decodeRequest_cons (decodeArgs_glyph slot hlen), fun s hl =>
    ⟨fun hslot => ?_, fun hslot => ?_⟩⟩
  · rw [exec_defineCustomGlyph_legal slot hlen]
    exact runRequest_raises hl (by decide) (defineCustomGlyphBody_outOfRange slot pattern (loadSequence s) hslot)
  · have ha := allowed_of_ready (.defineCustomGlyph slot pattern) hl
    have hill : isIllegal (.defineCustomGlyph slot pattern) = false := by simp [isIllegal, hlen]
    have hcount : txCount (instrEvents (.defineCustomGlyph slot pattern) s) = 36 := by simp [instrEvents, hlen]
    exact ⟨fun hok => exec_of_busOk rfl hill ha hslot (by rwa [hcount]),
      fun k hk => exec_failsAt rfl hill ha hslot (by rwa [hcount])⟩

end Sys2Proof.Machine
end

section
/-! init (42_operations.md R143, 70_reset_and_hazards.md R233, R234): its whole sequence, where a failure leaves it, and what
it latches downstream (the observer is log entry 15). -/

namespace Sys2Proof.Machine

open Sys2Proof.Safety

theorem allowed_init {s : State} (hs : Alive s) : Allowed .init s := by simpa [Allowed] using hs

theorem fieldUpdate_atEnd_init : FieldUpdate (atEnd .init) := ⟨fun _ _ _ => rfl, fun _ _ => rfl, fun _ => rfl⟩

theorem exec_init_of_busOk {s : State} (hs : Alive s) (hok : BusOk 29 s) :
    exec .init s = .next (returned .ok (atEnd .init (afterOk (initEvents s.backlight s.rows) s))) := by
  rw [fieldUpdate_atEnd_init.afterOk]
  exact exec_of_busOk rfl rfl (allowed_init hs) trivial (by rwa [instrEvents, txCount_initEvents])

/-! ### How long it takes (70_reset_and_hazards.md R245) -/

@[simp] theorem minMicros_append (a b : List Event) : minMicros (a ++ b) = minMicros a + minMicros b := by
  induction a with
  | nil => simp [minMicros]
  | cons x a ih => cases x <;> simp [minMicros, ih, Nat.add_assoc]

@[simp] theorem minMicros_nibbleEvents (f : Byte) : minMicros (nibbleEvents f) = 51 := rfl

@[simp] theorem minMicros_sendEvents (light : Bool) (b : Byte) (rs : Bool) : minMicros (sendEvents light b rs) = 102 := rfl

theorem minMicros_initEvents (light : Bool) (rows : Byte) : minMicros (initEvents light rows) = 69214 := by
  simp [initEvents, minMicros]

theorem length_initEvents (light : Bool) (rows : Byte) : (initEvents light rows).length = 29 + 35 := by
  simp [initEvents]

/-- Settles O16. -/
theorem initRunsTheBootSequence : Obligations.InitRunsTheBootSequence := by
  refine ⟨rfl, fun s hs => ⟨⟨txCount_initEvents _ _, length_initEvents _ _, minMicros_initEvents _ _⟩,
    exec_init_of_busOk hs, fun k hk => ?_⟩⟩
  exact exec_failsAt (i := .init) rfl rfl (allowed_init hs) trivial (by rwa [instrEvents, txCount_initEvents])

/-! ### What it latches -/

/-- The events of init after the reset nibbles (R233, steps 6 to 10). -/
def configureEvents (light : Bool) (rows : Byte) : List Event :=
  sendEvents light (if 1 < rows.toNat then 0x28 else 0x20) false ++ (sendEvents light 0x0C false ++
  (sendEvents light 0x01 false ++ .wait 2000 :: (sendEvents light 0x06 false ++ (sendEvents light 0x02 false ++
  [.wait 2000]))))

theorem initEvents_eq_reset_configure (light : Bool) (rows : Byte) :
    initEvents light rows = resetEvents light ++ configureEvents light rows := by
  simp [initEvents, resetEvents, configureEvents]

theorem latched_wait (en : Bool) (t : Nat) (rest : List Event) : latched en (.wait t :: rest) = latched en rest := rfl

/-- A raw latch leaves EN low (40_transmit.md R108). -/
theorem latched_rawLatch (light : Bool) (rest : List Event) :
    latched false (.tx (lightImage light) .ok :: rest) = latched false rest := by
  cases light <;> rfl

/-- A raw nibble, standing in the high half of `d`, is latched with register-select 0 (R107). -/
theorem latched_rawNibble (light : Bool) {d : Byte} (hd : d &&& 0xF0 = d) (rest : List Event) :
    latched false (nibbleEvents (d ||| lightImage light) ++ rest) = (d.extractLsb' 4 4, false) :: latched false rest := by
  have hframe : d ||| lightImage light = (d &&& 0xF0) ||| modeBit false ||| lightImage light := by
    rw [hd]
    exact congrArg (· ||| lightImage light) BitVec.or_zero.symm
  rw [hframe, latched_nibbleEvents (lowFrame_nibble light false d).enLow, extract_lowFrame, getLsbD_zero_lowFrame]

/-- The boot order up to its 0x2 nibble latches the nibbles 3, 3, 3, 2. -/
theorem latched_resetEvents (light : Bool) (rest : List Event) :
    latched false (resetEvents light ++ rest) =
      (3, false) :: (3, false) :: (3, false) :: (2, false) :: latched false rest := by
  have h3 := fun rest => latched_rawNibble light (d := 0x30) rfl rest
  have h2 := fun rest => latched_rawNibble light (d := 0x20) rfl rest
  simp only [resetEvents, List.append_assoc, List.cons_append, List.nil_append, latched_wait, latched_rawLatch, h3, h2]
  rfl

theorem delivered_wait (t : Nat) (rest : List Event) : delivered (.wait t :: rest) = delivered rest := rfl

theorem delivered_configureEvents (light : Bool) (rows : Byte) : delivered (configureEvents light rows) =
    [(if 1 < rows.toNat then 0x28 else 0x20, false), (0x0C, false), (0x01, false), (0x06, false), (0x02, false)] := by
  simp only [configureEvents, delivered_sendEvents, delivered_wait]
  rfl

/-- The reset nibbles end at a high nibble in 4-bit mode, whatever the interface expected before them (R234). -/
theorem foldl_phaseStep_resetNibbles (p : LcdPhase) : [3, 3, 3, 2].foldl phaseStep p = .highNext := by
  cases p with
  | eightBit | highNext => decide
  | lowNext hi => revert hi; decide

/-- Settles O52. -/
theorem initResynchronises : Obligations.InitResynchronises := by
  intro s hs hok
  have hlatched : latched false (initEvents s.backlight s.rows) =
      (3, false) :: (3, false) :: (3, false) :: (2, false) :: latched false (configureEvents s.backlight s.rows) := by
    rw [initEvents_eq_reset_configure, latched_resetEvents]
  refine ⟨_, initEvents s.backlight s.rows, exec_init_of_busOk hs hok, rfl, ?_⟩
  rw [hlatched]
  exact ⟨rfl, delivered_configureEvents s.backlight s.rows, foldl_phaseStep_resetNibbles, rfl⟩

end Sys2Proof.Machine
end

section
/-! Construction, and the requests before init (42_operations.md R140, R141). -/

namespace Sys2Proof.Machine

open Sys2Proof.Safety

/-- Settles O1. -/
theorem constructionStartsUninitialized : Obligations.ConstructionStartsUninitialized :=
  ⟨fun _ _ _ => ⟨rfl, rfl, rfl, rfl, rfl, rfl, rfl, rfl, rfl⟩, rfl⟩

/-- Settles O48: what the block's invariant asks of a Ready block does not apply yet, and the trace is empty. -/
theorem constructionMeetsTheInvariants : Obligations.ConstructionMeetsTheInvariants := fun _ _ _ _ _ =>
  ⟨⟨fun h => (nomatch h), fun h => (nomatch h), fun h => (nomatch h), fun _ => rfl, rfl⟩, ⟨everyFrame_nil _, rfl⟩⟩

/-- Settles O8: a well-formed request is not turned away, so it faults for not being Ready. -/
theorem requestsBeforeInitFaultNotReady : Obligations.RequestsBeforeInitFaultNotReady := by
  intro i s hr hi hwf hrec hl
  have hill : isIllegal i = false := Bool.eq_false_iff.mpr fun hill => by
    rcases isIllegal_cases hill with h | ⟨bytes, h⟩
    · simp [hwf] at h
    · exact hrec bytes h
  have hs : Alive s := fun r h => by simp [hl] at h
  obtain ⟨t, ht⟩ := exec_alive i hs
  rw [ht, (exec_ends ht).faultedWith_of_uninitialized hr hi hl, hill, if_neg Bool.false_ne_true]

end Sys2Proof.Machine
end

section
/-! Faults: a faulted block takes no step (60_exceptions.md R204), and which lifecycle an instruction ends in, with the cause
of each fault (10_state.md R22, R204, R212). -/

namespace Sys2Proof.Machine

open Sys2Proof.Safety

/-! ### The faulted block -/

theorem runInit_faulted (body : State → Flow) (s : State) (r : FaultReason) (h : s.lifecycle = .faulted r) :
    runInit body s = .fault (.halted r) := by simp [runInit, h]

theorem runIllegal_faulted (s : State) (r : FaultReason) (h : s.lifecycle = .faulted r) :
    runIllegal s = .fault (.halted r) := by simp [runIllegal, h]

theorem runPart_faulted (body : State → Flow) (s : State) (r : FaultReason) (h : s.lifecycle = .faulted r) :
    runPart body s = .fault (.halted r) := by simp [runPart, h]

/-- Every instruction stands in one of the four frames, and each frame turns a faulted block away first. -/
theorem exec_faulted (i : Instr) (s : State) (r : FaultReason) (h : s.lifecycle = .faulted r) :
    exec i s = .fault (.halted r) := by
  cases i with
  | init => exact runInit_faulted initBody s r h
  | illegalRequest => exact runIllegal_faulted s r h
  | defineCustomGlyph slot pattern =>
    by_cases hlen : pattern.length = glyphBytes
    · exact (if_pos hlen).trans (runRequest_faulted _ s r h)
    · exact (if_neg hlen).trans (runIllegal_faulted s r h)
  | lcdClear | lcdHome | lcdEntry | lcdDispCtl | lcdShift | lcdFuncSet | lcdSetCgram | lcdSetDdram | lcdData
  | rawNibble3 | rawNibble2 | frameEnHigh | frameEnLow | frameRawLatch | tx => exact runPart_faulted _ s r h
  | _ => exact runRequest_faulted _ s r h

theorem fetch_faulted (s : State) (r : FaultReason) (h : s.lifecycle = .faulted r) : fetch s = .halted r := by
  simp [fetch, h]

theorem step_faulted (s : State) (r : FaultReason) (h : s.lifecycle = .faulted r) : step s = .fault (.halted r) := by
  simp [step, fetch_faulted s r h]

/-- Settles O7. -/
theorem faultedBlockTakesNoStep : Obligations.FaultedBlockTakesNoStep := fun s r h =>
  ⟨step_faulted s r h, fun i => exec_faulted i s r h⟩

/-! ### The lifecycle after an instruction -/

/-- What has to hold for an instruction to fault with a reason (60_exceptions.md R204). -/
def FaultCause (i : Instr) (s : State) : FaultReason → Prop
  | .notReady => s.lifecycle = .uninitialized
  | .backlightBusAbort => isToggle i = true
  | .divideByZero => s.cols = 0 ∧ ∃ text, i = .printWrapped text
  | .illegalRequest => isIllegal i = true

/-- The lifecycle moves of 60_exceptions.md R212: a fault has its cause and is never init's, init ends Ready or
Uninitialized, and every other end leaves the lifecycle. -/
theorem Ends.lifecycle_cases {i : Instr} {s t : State} (h : Ends i s t) :
    (∃ r, t.lifecycle = .faulted r ∧ i ≠ .init ∧ FaultCause i s r) ∨
    (i = .init ∧ (t.lifecycle = .ready ∨ t.lifecycle = .uninitialized)) ∨
    (i ≠ .init ∧ t.lifecycle = s.lifecycle) := by
  cases h with
  | illegal hill => exact .inl ⟨_, rfl, (by rintro rfl; cases hill), hill⟩
  | notReady _ _ hi hl => exact .inl ⟨_, rfl, hi, hl⟩
  | error _ _ _ _ hi => exact .inr (.inr ⟨hi, rfl⟩)
  | divide text hi _ _ hcols => exact .inl ⟨_, rfl, by simp [hi], hcols, text, hi⟩
  | done =>
    by_cases hi : i = .init
    · subst hi
      exact .inr (.inl ⟨rfl, .inl rfl⟩)
    · exact .inr (.inr ⟨hi, by simp [atEnd_lifecycle hi]⟩)
  | fails k =>
    by_cases hi : i = .init
    · subst hi
      exact .inr (.inl ⟨rfl, .inr rfl⟩)
    · cases htog : isToggle i with
      | true =>
        rw [failWith_toggle htog]
        exact .inl ⟨_, rfl, hi, htog⟩
      | false =>
        rw [failWith_other htog]
        exact .inr (.inr ⟨hi, atFailure_lifecycle hi s k⟩)

/-- A block found faulted after an instruction was faulted by it, for the reason's cause. -/
theorem Ends.faultCause {i : Instr} {s t : State} {r : FaultReason} (h : Ends i s t) (ht : t.lifecycle = .faulted r) :
    FaultCause i s r := by
  rcases h.lifecycle_cases with ⟨r', hr, _, hcause⟩ | ⟨_, hl | hl⟩ | ⟨_, hl⟩
  · obtain rfl : r' = r := by simpa [hr] using ht
    exact hcause
  · simp [hl] at ht
  · simp [hl] at ht
  · exact absurd (hl.symm.trans ht) (h.alive r)

/-- Settles O36, from the lifecycle an instruction ends in and the cause of each fault. -/
theorem lifecycleMovesOnlyAsListed : Obligations.LifecycleMovesOnlyAsListed := by
  intro i s t ht
  have h := exec_ends ht
  refine ⟨fun hi => ?_, fun hi => ?_, h.faultCause, fun hl => (isToggle_iff i).mp (h.faultCause hl), h.faultCause,
    fun hl => isIllegal_cases (h.faultCause hl)⟩
  · rcases h.lifecycle_cases with ⟨r, hr, _⟩ | ⟨hinit, _⟩ | ⟨_, hl⟩
    · exact .inr ⟨r, hr⟩
    · exact absurd hinit hi
    · exact .inl hl
  · rcases h.lifecycle_cases with ⟨_, _, hn, _⟩ | ⟨_, hl⟩ | ⟨hn, _⟩
    · exact absurd hi hn
    · exact hl
    · exact absurd hi hn

end Sys2Proof.Machine
end

section
/-! The hazards of a failed transaction, as the observer of log entry 15 sees them: a send cut off between its two nibbles
(70_reset_and_hazards.md R238), and what follows an enable line left high (R242). -/

namespace Sys2Proof.Machine

open Sys2Proof.Safety

/-! ### A send cut off between its nibbles -/

/-- A failure at the third transaction leaves the high nibble's frame, and the low nibble's EN-high byte unanswered. -/
theorem failedAt_two_sendEvents (light : Bool) (b : Byte) (rs : Bool) :
    failedAt 2 (sendEvents light b rs) =
      nibbleEvents ((b &&& 0xF0) ||| modeBit rs ||| lightImage light) ++
        [.tx ((((b <<< 4) &&& 0xF0) ||| modeBit rs ||| lightImage light) ||| 0x04) .fail] := rfl

theorem latched_failedAt_two_sendEvents (light : Bool) (b : Byte) (rs : Bool) :
    latched false (failedAt 2 (sendEvents light b rs)) = [(b.extractLsb' 4 4, rs)] := by
  rw [failedAt_two_sendEvents, latched_nibbleEvents (lowFrame_nibble light rs b).enLow, extract_lowFrame,
    getLsbD_zero_lowFrame]
  rfl

/-- Settles O53: the events of a send, cut off at its third transaction. -/
theorem failureBetweenNibblesLeavesOne : Obligations.FailureBetweenNibblesLeavesOne := by
  refine ⟨fun value rs s hfail => ?_, fun ch s hl hfail => ?_⟩
  · obtain ⟨p, _, hraise⟩ := (send_performs value rs s).raises 2 (by simp) hfail
    exact ⟨_, _, hraise, rfl, latched_failedAt_two_sendEvents s.backlight value rs⟩
  · obtain ⟨p, _, hnext⟩ :=
      exec_failsAt (i := .print ch) rfl rfl (allowed_of_ready _ hl) trivial (by simp [instrEvents]) hfail
    exact ⟨_, _, hnext, rfl, latched_failedAt_two_sendEvents s.backlight ch true, rfl, rfl⟩

/-! ### An enable line left high -/

/-- A raw latch is a falling edge of an enable line left high: it latches the nibble 0. -/
theorem latched_true_rawLatch (light : Bool) (rest : List Event) :
    latched true (.tx (lightImage light) .ok :: rest) = (0, false) :: latched false rest := by
  cases light <;> rfl

/-- A nibble frame raises EN first, so it latches its own nibble alone, whatever EN was before. -/
theorem latched_enable_nibbleEvents (en : Bool) (f : Byte) (rest : List Event) :
    latched en (nibbleEvents f ++ rest) = latched false (nibbleEvents f ++ rest) := by
  simp [nibbleEvents, latched]

theorem latched_enable_sendEvents (en light : Bool) (b : Byte) (rs : Bool) :
    latched en (sendEvents light b rs) = [(b.extractLsb' 4 4, rs), (b.extractLsb' 0 4, rs)] :=
  calc latched en (sendEvents light b rs)
    _ = latched false (sendEvents light b rs) := latched_enable_nibbleEvents en _ _
    _ = _ := by simpa [latched] using latched_sendEvents light b rs []

/-- init's first transaction is its raw latch (R233): of an enable line left high it makes one nibble more. -/
theorem latched_true_initEvents (light : Bool) (rows : Byte) :
    latched true (initEvents light rows) = (0, false) :: latched false (initEvents light rows) := by
  simp only [initEvents, List.append_assoc, List.cons_append, latched_wait, latched_true_rawLatch, latched_rawLatch]

/-- Settles O54: a toggle and init begin with a raw latch, a data byte with EN high. -/
theorem enableLeftHighLatchesAStrayNibble : Obligations.EnableLeftHighLatchesAStrayNibble := by
  refine ⟨fun s on hl hok => ?_, fun s hs hok => ?_, fun ch s hl hok => ?_⟩
  · cases on with
    | true =>
      exact ⟨_, _, exec_of_busOk (i := .backlightOn) rfl rfl (allowed_of_ready _ hl) trivial hok, rfl,
        latched_true_rawLatch true []⟩
    | false =>
      exact ⟨_, _, exec_of_busOk (i := .backlightOff) rfl rfl (allowed_of_ready _ hl) trivial hok, rfl,
        latched_true_rawLatch false []⟩
  · exact ⟨_, _, exec_init_of_busOk hs hok, rfl, latched_true_initEvents s.backlight s.rows⟩
  · exact ⟨_, _, exec_of_busOk (i := .print ch) rfl rfl (allowed_of_ready _ hl) trivial hok, rfl,
      latched_enable_sendEvents true s.backlight ch true⟩

end Sys2Proof.Machine
end

section
/-! The least time that all-ok sends and requests take (70_reset_and_hazards.md R245, R246): 102 µs for each send, and the
waits between them. -/

namespace Sys2Proof.Machine

open Sys2Proof.Safety

@[simp] theorem minMicros_dataEvents (light : Bool) (bytes : List Byte) :
    minMicros (dataEvents light bytes) = 102 * bytes.length := by
  induction bytes with
  | nil => rfl
  | cons b rest ih =>
    have hcons : dataEvents light (b :: rest) = sendEvents light b true ++ dataEvents light rest := rfl
    rw [hcons, minMicros_append, minMicros_sendEvents, ih, List.length_cons]
    omega

/-- Each character of printWrapped takes two sends (R152). -/
theorem minMicros_wrappedEvents (light : Bool) (cols rows : Byte) (offsets : List Byte) (i : Nat) (text : List Byte) :
    minMicros (wrappedEvents light cols rows offsets i text) = 204 * text.length := by
  induction text generalizing i with
  | nil => rfl
  | cons ch rest ih =>
    simp only [wrappedEvents, minMicros_append, minMicros_sendEvents, ih, List.length_cons]
    omega

/-- An instruction that its lifecycle and its checks allow, and whose every transaction was answered `ok`, has made all of
its events. -/
theorem Ends.events_of_busOk {i : Instr} {s t : State} {evs : List Event} (h : Ends i s t) (hill : isIllegal i = false)
    (ha : Allowed i s) (hu : Usable i s) (ht : t.trace = s.trace ++ evs) (hok : BusOk (txCount evs) s) :
    evs = instrEvents i s := by
  rcases busOk_or_failsAt (txCount (instrEvents i s)) s with hall | ⟨k, hk, hfail⟩
  · obtain rfl := h.eq_of_busOk hill ha hu hall
    simpa using ht.symm
  · obtain ⟨p, _, rfl⟩ := h.eq_of_busFailsAt hill ha hu hk hfail
    have hev : failedAt k (instrEvents i s) = evs := by simpa using ht
    rw [← hev, txCount_failedAt k _ hk] at hok
    exact absurd hok (not_busOk_of_failsAt (Nat.lt_succ_self k) hfail)

theorem minMicros_send {value : Byte} {rs : Bool} {s t : State} {evs : List Event} (hok : BusOk 4 s)
    (hgo : send value rs s = .go t) (ht : t.trace = s.trace ++ evs) : minMicros evs = 102 := by
  obtain rfl : afterOk (sendEvents s.backlight value rs) s = t :=
    Flow.go.inj (((send_performs value rs s).goes hok).symm.trans hgo)
  have hev : sendEvents s.backlight value rs = evs := by simpa using ht
  rw [← hev, minMicros_sendEvents]

/-- Settles O55: the waits of each request's own events. -/
theorem minimumDurations : Obligations.MinimumDurations := by
  refine ⟨fun value rs s t evs => minMicros_send, fun s t i evs hl hok hnext ht => ?_⟩
  have hmin (hill : isIllegal i = false) (hu : Usable i s) : minMicros evs = minMicros (instrEvents i s) :=
    congrArg minMicros ((exec_ends hnext).events_of_busOk hill (allowed_of_ready i hl) hu ht hok)
  refine ⟨?_, ?_, ?_, ?_, ?_, ?_, ?_, ?_, ?_⟩
  · rintro rfl
    exact (hmin rfl trivial).trans (minMicros_initEvents s.backlight s.rows)
  · rintro (rfl | rfl) <;> exact hmin rfl trivial
  · rintro (rfl | rfl | rfl | rfl | rfl | rfl | ⟨on, rfl⟩ | ⟨ch, rfl⟩) <;> exact hmin rfl trivial
  · rintro (rfl | rfl) <;> exact hmin rfl trivial
  · rintro col row offsets rfl htable hrow
    exact hmin rfl ⟨hrow, offsets, htable⟩
  · rintro offsets rfl htable hrows
    exact hmin rfl ⟨hrows, offsets, htable⟩
  · rintro slot pattern rfl hslot hlen
    rw [hmin (by simp [isIllegal, hlen]) hslot]
    simp [instrEvents, hlen]
  · rintro text rfl
    exact (hmin rfl trivial).trans (minMicros_dataEvents s.backlight text)
  · rintro text offsets rfl htable hcols
    exact (hmin rfl (.inr ⟨hcols, offsets, htable⟩)).trans (minMicros_wrappedEvents _ _ _ _ _ _)

end Sys2Proof.Machine
end
